-- ==== Sys2Proof/Word.lean ====
section
/-! DEFINITION. The two word types of the core (R4: XLEN = 32; R50: memory cells of 8 bits; R5: bit 0 is the least significant). -/

namespace Sys2Proof

/-- A 32-bit word: a register, an address, an instruction (R4, R5). -/
abbrev Word := BitVec 32

/-- One memory cell (R50). -/
abbrev Byte := BitVec 8

end Sys2Proof
end

