-- ==== Sys2Proof/Syntax.lean ====
section
/-! DEFINITION. The instructions as data: register names, condition tags, operand forms, and one constructor of `Instr`
for each row of the opcode table, its arguments in the order the decoder gives them (R99). -/

namespace Sys2Proof

/-- The general registers (R20, R84). r7 is also the stack pointer (R21). -/
inductive Reg where
  | r0 | r1 | r2 | r3 | r4 | r5 | r6 | r7
deriving DecidableEq, Repr

/-- The fifteen condition tags, in the order of R121. -/
inductive Cond where
  | always
  | nSet | nClear
  | cSet | cClear
  | vSet | vClear
  | zSet | zClear
  | cOrZ
  | notCAndNotZ
  | nXorV
  | nXorVOrZ
  | nEqV
  | nEqVAndNotZ
deriving DecidableEq, Repr

/-- The 27 mnemonics that an opcode class can select (R83). RET stands for RET, RETI and RETN, which share a class (R91). -/
inductive Opcode where
  | move
  | or | and | xor
  | add | adc | sub | sbc
  | rotl | rotr | shl | shr | ashr
  | cmp
  | pop | push
  | loadb | storeb | loadh | storeh | load | store
  | jp | call | jr | ret
  | halt
deriving DecidableEq, Repr

/-- An operand that is an immediate or a register: src2 of the ALU format (R87, R88), the target of JP and CALL (R89).
The immediate is the decoded, sign-extended value (R82). -/
inductive RegImm where
  | imm (v : Word)
  | reg (r : Reg)
deriving DecidableEq, Repr

/-- The source of MOVE: the status register, an immediate, or a register (R86). -/
inductive MoveSrc where
  | sr
  | imm (v : Word)
  | reg (r : Reg)
deriving DecidableEq, Repr

/-- The destination of MOVE: the status register or a register (R86). -/
inductive MoveDst where
  | sr
  | reg (r : Reg)
deriving DecidableEq, Repr

/-- The address operand of the MEM format: the absolute form, or a base register with an offset (R92). -/
inductive Addr where
  | abs (a : Word)
  | base (rb : Reg) (off : Word)
deriving DecidableEq, Repr

/-- One constructor for each row of the opcode table; the arguments in the decoder's order (R99, R263). -/
inductive Instr where
  /-- MOVE (R86, R140). -/
  | move (src : MoveSrc) (dest : MoveDst)
  /-- OR (R87, R160). -/
  | or (src1 : Reg) (src2 : RegImm) (dest : Reg)
  /-- AND (R87, R159). -/
  | and (src1 : Reg) (src2 : RegImm) (dest : Reg)
  /-- XOR (R87, R161). -/
  | xor (src1 : Reg) (src2 : RegImm) (dest : Reg)
  /-- ADD (R87, R154). -/
  | add (src1 : Reg) (src2 : RegImm) (dest : Reg)
  /-- ADC (R87, R155). -/
  | adc (src1 : Reg) (src2 : RegImm) (dest : Reg)
  /-- SUB (R87, R156). -/
  | sub (src1 : Reg) (src2 : RegImm) (dest : Reg)
  /-- SBC (R87, R158). -/
  | sbc (src1 : Reg) (src2 : RegImm) (dest : Reg)
  /-- ROTL (R87, R185). -/
  | rotl (src1 : Reg) (src2 : RegImm) (dest : Reg)
  /-- ROTR (R87, R186). -/
  | rotr (src1 : Reg) (src2 : RegImm) (dest : Reg)
  /-- SHL (R87, R182). -/
  | shl (src1 : Reg) (src2 : RegImm) (dest : Reg)
  /-- SHR (R87, R183). -/
  | shr (src1 : Reg) (src2 : RegImm) (dest : Reg)
  /-- ASHR (R87, R184). -/
  | ashr (src1 : Reg) (src2 : RegImm) (dest : Reg)
  /-- CMP (R88, R157). -/
  | cmp (src1 : Reg) (src2 : RegImm)
  /-- POP (R93, R209). -/
  | pop (reg : Reg)
  /-- PUSH (R93, R208). -/
  | push (reg : Reg)
  /-- LOADB (R92, R204). -/
  | loadb (addr : Addr) (reg : Reg)
  /-- STOREB (R92, R207). -/
  | storeb (addr : Addr) (reg : Reg)
  /-- LOADH (R92, R203). -/
  | loadh (addr : Addr) (reg : Reg)
  /-- STOREH (R92, R206). -/
  | storeh (addr : Addr) (reg : Reg)
  /-- LOAD (R92, R202). -/
  | load (addr : Addr) (reg : Reg)
  /-- STORE (R92, R205). -/
  | store (addr : Addr) (reg : Reg)
  /-- JP (R89, R231). -/
  | jp (cond : Cond) (dest : RegImm)
  /-- CALL (R89, R232). -/
  | call (cond : Cond) (dest : RegImm)
  /-- JR (R90, R233). -/
  | jr (cond : Cond) (off : Word)
  /-- RET (R91, R234). -/
  | ret (cond : Cond)
  /-- RETI (R91, R235). -/
  | reti (cond : Cond)
  /-- RETN (R91, R236). -/
  | retn (cond : Cond)
  /-- HALT (R94, R237). -/
  | halt (cond : Cond)
deriving DecidableEq, Repr

end Sys2Proof
end

