-- ==== Sys2Proof/Config.lean ====
section
/-! DEFINITION. What is fixed for the machine: the parameters of R4 that the source settles, and the TYPES of the parameters
whose value is a decision of the spec. The decided values stand where a repair can reach them: OPCODE_MAP and COND_MAP in
Decode.lean, SUB_C_CONVENTION and SHIFT_COUNT_BITS in Machine/Flags.lean, all of them together in Machine/Params.lean. No result
of the core at its default parameters is open (93_implementation_defined.md, end of part 1); the one value the source lacks at
other parameters, a shift by 32 or more (decision D5), is a free value (log entry 21). -/

namespace Sys2Proof.Config

/-- MEM_SIZE, 256 KiB (R4, R50). -/
def memSize : Nat := 0x40000

/-- INSN_BYTES (R4, R80). -/
def insnBytes : Nat := 4

/-- RESET_IIF (R4, R28). -/
def resetIif : Bool := true

/-- The two values of SUB_C_CONVENTION (R4, R151). -/
inductive SubCConvention where
  | borrow
  | notBorrow
deriving DecidableEq, Repr

/-- A value of the parameters OPCODE_MAP and COND_MAP (R4): each map with its inverse on the codes in use. -/
structure CodeMaps where
  /-- the mnemonic an opcode class selects, if any (R83) -/
  opcodeOf : BitVec 5 → Option Opcode
  /-- the opcode class of a mnemonic -/
  codeOf : Opcode → BitVec 5
  /-- the tag a condition code selects, if any (R121) -/
  condOf : BitVec 4 → Option Cond
  /-- the condition code of a tag -/
  condCode : Cond → BitVec 4

/-- The values the two parameters may take (92_eei_decisions.md, table of parameters): a bijection of the mnemonics onto
codes other than the two reserved ones that keeps ADD = 00100, and an injection of the tags into the condition codes. -/
structure CodeMaps.Lawful (m : CodeMaps) : Prop where
  opcode : ∀ c op, m.opcodeOf c = some op ↔ m.codeOf op = c
  cond : ∀ c t, m.condOf c = some t ↔ m.condCode t = c
  add : m.codeOf .add = 0b00100#5
  reserved14 : m.opcodeOf 0b01110#5 = none
  reserved15 : m.opcodeOf 0b01111#5 = none

/-- The five shifts and rotates (R182 to R186). -/
inductive ShiftOp where
  | shl
  | shr
  | ashr
  | rotl
  | rotr
deriving DecidableEq, Repr

/-- FREE VALUE (DESIGN CHOICE: the spec states no result; decision D5; log entry 21): the result of a shift or rotate by a count of
32 or more, which only a SHIFT_COUNT_BITS of 6 or more lets happen. -/
opaque wideShift : ShiftOp → Word → Nat → Word

/-- FREE VALUE (DESIGN CHOICE: the spec states no C; decision D5; log entry 21): the C flag of such a shift or rotate. -/
opaque wideShiftC : ShiftOp → Word → Nat → Bool

/-- A value of every parameter of R4 that is the model's argument: the four that are decisions, and FREQ, which is configurable. -/
structure Params where
  /-- OPCODE_MAP and COND_MAP -/
  maps : CodeMaps
  /-- SUB_C_CONVENTION -/
  subC : SubCConvention
  /-- SHIFT_COUNT_BITS -/
  shiftCountBits : Nat
  /-- FREQ, cycles per second while running (R346) -/
  freq : Rat

/-- The values the parameters may take (92_eei_decisions.md, table of parameters). -/
structure Params.Lawful (p : Params) : Prop where
  maps : p.maps.Lawful
  countLow : 5 ≤ p.shiftCountBits
  countHigh : p.shiftCountBits ≤ 32
  freq : 0 < p.freq

/-- The tick interval in milliseconds, `1000/FREQ` (R268, R346): it bounds the rate of ticks, and no result depends on it. -/
def Params.tickIntervalMs (p : Params) : Rat := 1000 / p.freq

end Sys2Proof.Config
end

