-- ==== Sys2Proof/WellFormed.lean ====
section
/-! DEFINITION. Which terms of `Instr` the 32-bit word can hold: every immediate is a sign-extended 20-bit value (R82). The
other fields cannot be ill-formed (R84: all eight register codes are mapped; R121: fifteen tags, each with a code). -/

namespace Sys2Proof

/-- A value of `sext_32(w[19:0])` for some w: bits 31..20 repeat bit 19 (R82). -/
def isImm20 (v : Word) : Bool := (v.setWidth 20).signExtend 32 == v

def RegImm.wf : RegImm → Bool
  | .imm v => isImm20 v
  | .reg _ => true

def MoveSrc.wf : MoveSrc → Bool
  | .sr => true
  | .imm v => isImm20 v
  | .reg _ => true

def Addr.wf : Addr → Bool
  | .abs a => isImm20 a
  | .base _ off => isImm20 off

/-- The instruction fits its encoding (R82). -/
def Instr.wf : Instr → Bool
  | .move src _ => src.wf
  | .or _ src2 _ => src2.wf
  | .and _ src2 _ => src2.wf
  | .xor _ src2 _ => src2.wf
  | .add _ src2 _ => src2.wf
  | .adc _ src2 _ => src2.wf
  | .sub _ src2 _ => src2.wf
  | .sbc _ src2 _ => src2.wf
  | .rotl _ src2 _ => src2.wf
  | .rotr _ src2 _ => src2.wf
  | .shl _ src2 _ => src2.wf
  | .shr _ src2 _ => src2.wf
  | .ashr _ src2 _ => src2.wf
  | .cmp _ src2 => src2.wf
  | .pop _ => true
  | .push _ => true
  | .loadb addr _ => addr.wf
  | .storeb addr _ => addr.wf
  | .loadh addr _ => addr.wf
  | .storeh addr _ => addr.wf
  | .load addr _ => addr.wf
  | .store addr _ => addr.wf
  | .jp _ dest => dest.wf
  | .call _ dest => dest.wf
  | .jr _ off => isImm20 off
  | .ret _ => true
  | .reti _ => true
  | .retn _ => true
  | .halt _ => true

end Sys2Proof
end

