-- ==== Sys2Proof/Decode.lean ====
section
/-! DEFINITION. From words to instructions and back (30_encoding.md): field extraction, the default OPCODE_MAP and COND_MAP,
the decoder, total and rejecting by name, then the encoder, written from the same tables. -/

namespace Sys2Proof

/-! ## Bytes of a word, little-endian (R53, R54, R56, R57) -/

/-- Byte k of a word, k = 0 the one at the lowest address. -/
def byteOf (w : Word) (k : Nat) : Byte := w.extractLsb' (8 * k) 8

/-- The halfword whose low byte lies at the lower address (R53). -/
def joinHalf (lo hi : Byte) : BitVec 16 := hi ++ lo

/-- The word whose low halfword lies at the lower address (R54). -/
def joinWord (lo hi : BitVec 16) : Word := hi ++ lo

/-- The four bytes of a word in the order they are stored (R57). -/
def wordBytes (w : Word) : List Byte := [byteOf w 0, byteOf w 1, byteOf w 2, byteOf w 3]

/-! ## Fields (R81 to R94) -/

/-- `sext_32` of a 20-bit value (R7, R82). -/
def sext20 (v : BitVec 20) : Word := v.signExtend 32

/-- The opcode class w[31:27] (R81). -/
def opField (w : Word) : BitVec 5 := w.extractLsb' 27 5

/-- The condition code w[25:22] (R95). -/
def condField (w : Word) : BitVec 4 := w.extractLsb' 22 4

/-- Three-bit register codes (R84). -/
def regOf (c : BitVec 3) : Reg :=
  match c.toNat with
  | 0 => .r0
  | 1 => .r1
  | 2 => .r2
  | 3 => .r3
  | 4 => .r4
  | 5 => .r5
  | 6 => .r6
  | _ => .r7

/-- w[25:23]: the destination of MOVE and the ALU format, the data register of MEM and STACK. -/
def rdField (w : Word) : Reg := regOf (w.extractLsb' 23 3)

/-- w[22:20]: rs1 of the ALU format, rb of MEM. -/
def rs1Field (w : Word) : Reg := regOf (w.extractLsb' 20 3)

/-- w[19:17]: rs of MOVE, rs2 of the ALU format, rt of JUMP. -/
def rs2Field (w : Word) : Reg := regOf (w.extractLsb' 17 3)

/-- `sext_32(w[19:0])`, the one immediate (R82). -/
def immField (w : Word) : Word := sext20 (w.extractLsb' 0 20)

/-- Immediate when bit 26 is 1, else the register w[19:17] (R87, R88, R89). -/
def regImmField (w : Word) : RegImm :=
  if w.getLsbD 26 then .imm (immField w) else .reg (rs2Field w)

/-- MOVE's source: sr when bit 21 is 1, else immediate when bit 26 is 1, else register (R86). -/
def moveSrcField (w : Word) : MoveSrc :=
  if w.getLsbD 21 then .sr else if w.getLsbD 26 then .imm (immField w) else .reg (rs2Field w)

/-- MOVE's destination: sr when bit 20 is 1, else register (R86). -/
def moveDstField (w : Word) : MoveDst :=
  if w.getLsbD 20 then .sr else .reg (rdField w)

/-- MEM's address: absolute when bit 26 is 0, else base and offset (R92). -/
def addrField (w : Word) : Addr :=
  if w.getLsbD 26 then .base (rs1Field w) (immField w) else .abs (immField w)

/-! ## The decoder -/

/-- Why a decode fails (R96). The two kinds the core can meet are the two of R96; `truncatedInput` is only for a byte list
shorter than an instruction, which the fetch never gives (R80). -/
inductive DecodeFailure where
  /-- the opcode class is no mnemonic: R96 (a) -/
  | undefinedOperationCode (cls : BitVec 5)
  /-- the condition code is undefined: R96 (b) -/
  | malformedArguments (code : BitVec 4)
  /-- fewer than four bytes were given -/
  | truncatedInput
deriving DecidableEq, Repr

/-- OPCODE_MAP, the default (R83, decision D1; log entry 5). -/
def opcodeOf (c : BitVec 5) : Option Opcode :=
  match c.toNat with
  | 0 => some .move
  | 1 => some .or
  | 2 => some .and
  | 3 => some .xor
  | 4 => some .add
  | 5 => some .adc
  | 6 => some .sub
  | 7 => some .sbc
  | 8 => some .rotl
  | 9 => some .rotr
  | 10 => some .shl
  | 11 => some .shr
  | 12 => some .ashr
  | 13 => some .cmp
  | 16 => some .pop
  | 17 => some .push
  | 18 => some .loadb
  | 19 => some .storeb
  | 20 => some .loadh
  | 21 => some .storeh
  | 22 => some .load
  | 23 => some .store
  | 24 => some .jp
  | 25 => some .call
  | 26 => some .jr
  | 27 => some .ret
  | 31 => some .halt
  | _ => none

/-- COND_MAP, the default (R121, decision D2; log entry 6). -/
def condOf (c : BitVec 4) : Option Cond :=
  match c.toNat with
  | 0 => some .always
  | 1 => some .nSet
  | 2 => some .nClear
  | 3 => some .cSet
  | 4 => some .cClear
  | 5 => some .vSet
  | 6 => some .vClear
  | 7 => some .zSet
  | 8 => some .zClear
  | 9 => some .cOrZ
  | 10 => some .notCAndNotZ
  | 11 => some .nXorV
  | 12 => some .nXorVOrZ
  | 13 => some .nEqV
  | 14 => some .nEqVAndNotZ
  | _ => none

/-- The instruction a conditional format gives once its condition code is mapped; failure on an undefined code (R95, R96). -/
def withCond (m : Config.CodeMaps) (w : Word) (k : Cond → Instr) : Except DecodeFailure Instr :=
  match m.condOf (condField w) with
  | some t => .ok (k t)
  | none => .error (.malformedArguments (condField w))

/-- RET, RETI or RETN by bits 1 and 0 (R91). -/
def retKind (w : Word) (t : Cond) : Instr :=
  if w.getLsbD 0 then (if w.getLsbD 1 then .retn t else .reti t) else .ret t

/-- The arguments of a mnemonic, read from the word per format (R86 to R94). -/
def decodeArgs (m : Config.CodeMaps) (w : Word) : Opcode → Except DecodeFailure Instr
  | .move => .ok (.move (moveSrcField w) (moveDstField w))
  | .or => .ok (.or (rs1Field w) (regImmField w) (rdField w))
  | .and => .ok (.and (rs1Field w) (regImmField w) (rdField w))
  | .xor => .ok (.xor (rs1Field w) (regImmField w) (rdField w))
  | .add => .ok (.add (rs1Field w) (regImmField w) (rdField w))
  | .adc => .ok (.adc (rs1Field w) (regImmField w) (rdField w))
  | .sub => .ok (.sub (rs1Field w) (regImmField w) (rdField w))
  | .sbc => .ok (.sbc (rs1Field w) (regImmField w) (rdField w))
  | .rotl => .ok (.rotl (rs1Field w) (regImmField w) (rdField w))
  | .rotr => .ok (.rotr (rs1Field w) (regImmField w) (rdField w))
  | .shl => .ok (.shl (rs1Field w) (regImmField w) (rdField w))
  | .shr => .ok (.shr (rs1Field w) (regImmField w) (rdField w))
  | .ashr => .ok (.ashr (rs1Field w) (regImmField w) (rdField w))
  | .cmp => .ok (.cmp (rs1Field w) (regImmField w))
  | .pop => .ok (.pop (rdField w))
  | .push => .ok (.push (rdField w))
  | .loadb => .ok (.loadb (addrField w) (rdField w))
  | .storeb => .ok (.storeb (addrField w) (rdField w))
  | .loadh => .ok (.loadh (addrField w) (rdField w))
  | .storeh => .ok (.storeh (addrField w) (rdField w))
  | .load => .ok (.load (addrField w) (rdField w))
  | .store => .ok (.store (addrField w) (rdField w))
  | .jp => withCond m w fun t => .jp t (regImmField w)
  | .call => withCond m w fun t => .call t (regImmField w)
  | .jr => withCond m w fun t => .jr t (immField w)
  | .ret => withCond m w (retKind w)
  | .halt => withCond m w fun t => .halt t

/-- The decoder, for any value of OPCODE_MAP and COND_MAP (R81, R96, R99). -/
def decodeWith (m : Config.CodeMaps) (w : Word) : Except DecodeFailure Instr :=
  match m.opcodeOf (opField w) with
  | some op => decodeArgs m w op
  | none => .error (.undefinedOperationCode (opField w))

/-! ## The encoder -/

/-- The inverse of `opcodeOf` (R83). -/
def opcodeCode : Opcode → BitVec 5
  | .move => 0b00000
  | .or => 0b00001
  | .and => 0b00010
  | .xor => 0b00011
  | .add => 0b00100
  | .adc => 0b00101
  | .sub => 0b00110
  | .sbc => 0b00111
  | .rotl => 0b01000
  | .rotr => 0b01001
  | .shl => 0b01010
  | .shr => 0b01011
  | .ashr => 0b01100
  | .cmp => 0b01101
  | .pop => 0b10000
  | .push => 0b10001
  | .loadb => 0b10010
  | .storeb => 0b10011
  | .loadh => 0b10100
  | .storeh => 0b10101
  | .load => 0b10110
  | .store => 0b10111
  | .jp => 0b11000
  | .call => 0b11001
  | .jr => 0b11010
  | .ret => 0b11011
  | .halt => 0b11111

/-- The inverse of `condOf` (R121). -/
def condCode : Cond → BitVec 4
  | .always => 0b0000
  | .nSet => 0b0001
  | .nClear => 0b0010
  | .cSet => 0b0011
  | .cClear => 0b0100
  | .vSet => 0b0101
  | .vClear => 0b0110
  | .zSet => 0b0111
  | .zClear => 0b1000
  | .cOrZ => 0b1001
  | .notCAndNotZ => 0b1010
  | .nXorV => 0b1011
  | .nXorVOrZ => 0b1100
  | .nEqV => 0b1101
  | .nEqVAndNotZ => 0b1110

/-- The default values of OPCODE_MAP and COND_MAP. -/
def defaultMaps : Config.CodeMaps where
  opcodeOf := opcodeOf
  codeOf := opcodeCode
  condOf := condOf
  condCode := condCode

/-- The decoder of the core. -/
def decode (w : Word) : Except DecodeFailure Instr := decodeWith defaultMaps w

/-- Decoding from stored bytes: the first four make the instruction's word, little-endian (R80); the rest is given back. -/
def decodeBytes : List Byte → Except DecodeFailure (Instr × List Byte)
  | b0 :: b1 :: b2 :: b3 :: rest =>
    match decode (joinWord (joinHalf b0 b1) (joinHalf b2 b3)) with
    | .ok i => .ok (i, rest)
    | .error e => .error e
  | _ => .error .truncatedInput

/-- The three-bit code of a register (R84). -/
def regCode : Reg → BitVec 3
  | .r0 => 0b000
  | .r1 => 0b001
  | .r2 => 0b010
  | .r3 => 0b011
  | .r4 => 0b100
  | .r5 => 0b101
  | .r6 => 0b110
  | .r7 => 0b111

/-- The mnemonic of an instruction (R91: RETI and RETN are kinds of RET). -/
def opcodeOfInstr : Instr → Opcode
  | .move _ _ => .move
  | .or _ _ _ => .or
  | .and _ _ _ => .and
  | .xor _ _ _ => .xor
  | .add _ _ _ => .add
  | .adc _ _ _ => .adc
  | .sub _ _ _ => .sub
  | .sbc _ _ _ => .sbc
  | .rotl _ _ _ => .rotl
  | .rotr _ _ _ => .rotr
  | .shl _ _ _ => .shl
  | .shr _ _ _ => .shr
  | .ashr _ _ _ => .ashr
  | .cmp _ _ => .cmp
  | .pop _ => .pop
  | .push _ => .push
  | .loadb _ _ => .loadb
  | .storeb _ _ => .storeb
  | .loadh _ _ => .loadh
  | .storeh _ _ => .storeh
  | .load _ _ => .load
  | .store _ _ => .store
  | .jp _ _ => .jp
  | .call _ _ => .call
  | .jr _ _ => .jr
  | .ret _ => .ret
  | .reti _ => .ret
  | .retn _ => .ret
  | .halt _ => .halt

/-- A word with the fields 31..27, 26, 25..23, 22..20 and 19..0. -/
def wordOf (op : BitVec 5) (b26 : BitVec 1) (f23 f20 : BitVec 3) (low : BitVec 20) : Word :=
  op ++ b26 ++ f23 ++ f20 ++ low

/-- A word with the fields 31..27, 26, 25..22 (the condition), 21..20 = 00 and 19..0. -/
def condWord (op : BitVec 5) (b26 : BitVec 1) (cc : BitVec 4) (low : BitVec 20) : Word :=
  op ++ b26 ++ cc ++ 0#2 ++ low

/-- Bits 19..0 of a register operand: the register in 19..17, zeros below (R97). -/
def regLow (r : Reg) : BitVec 20 := regCode r ++ 0#17

/-- Bits 19..0 of an immediate (R82). -/
def immLow (v : Word) : BitVec 20 := v.setWidth 20

/-- Bit 26 and bits 19..0 of an immediate-or-register operand (R87, R89). -/
def RegImm.bit26 : RegImm → BitVec 1
  | .imm _ => 1
  | .reg _ => 0

def RegImm.low : RegImm → BitVec 20
  | .imm v => immLow v
  | .reg r => regLow r

/-- ALU format (R87). -/
def aluWord (op : BitVec 5) (src1 : Reg) (src2 : RegImm) (f23 : BitVec 3) : Word :=
  wordOf op src2.bit26 f23 (regCode src1) src2.low

/-- MEM format (R92). -/
def memWord (op : BitVec 5) (addr : Addr) (reg : Reg) : Word :=
  match addr with
  | .abs a => wordOf op 0 (regCode reg) 0 (immLow a)
  | .base rb off => wordOf op 1 (regCode reg) (regCode rb) (immLow off)

/-- MOVE's bits 25..23 and 20: the destination (R86). -/
def MoveDst.rd : MoveDst → BitVec 3
  | .sr => 0
  | .reg r => regCode r

def MoveDst.bit20 : MoveDst → BitVec 1
  | .sr => 1
  | .reg _ => 0

/-- MOVE format (R86): 31..27, 26 = I, 25..23 = rd, 22 = 0, 21 = S, 20 = D, 19..0. -/
def moveWord (op : BitVec 5) (src : MoveSrc) (dest : MoveDst) : Word :=
  match src with
  | .sr => wordOf op 0 dest.rd (0#1 ++ 1#1 ++ dest.bit20) 0
  | .imm v => wordOf op 1 dest.rd (0#1 ++ 0#1 ++ dest.bit20) (immLow v)
  | .reg r => wordOf op 0 dest.rd (0#1 ++ 0#1 ++ dest.bit20) (regLow r)

/-- The word of an instruction, for any value of OPCODE_MAP and COND_MAP: every ignored bit 0, except bit 26 of JR, which is 1
(R90, R97, decision D19; log entry 13). -/
def encodeWith (m : Config.CodeMaps) (i : Instr) : Word :=
  let op := m.codeOf (opcodeOfInstr i)
  match i with
  | .move src dest => moveWord op src dest
  | .or src1 src2 dest => aluWord op src1 src2 (regCode dest)
  | .and src1 src2 dest => aluWord op src1 src2 (regCode dest)
  | .xor src1 src2 dest => aluWord op src1 src2 (regCode dest)
  | .add src1 src2 dest => aluWord op src1 src2 (regCode dest)
  | .adc src1 src2 dest => aluWord op src1 src2 (regCode dest)
  | .sub src1 src2 dest => aluWord op src1 src2 (regCode dest)
  | .sbc src1 src2 dest => aluWord op src1 src2 (regCode dest)
  | .rotl src1 src2 dest => aluWord op src1 src2 (regCode dest)
  | .rotr src1 src2 dest => aluWord op src1 src2 (regCode dest)
  | .shl src1 src2 dest => aluWord op src1 src2 (regCode dest)
  | .shr src1 src2 dest => aluWord op src1 src2 (regCode dest)
  | .ashr src1 src2 dest => aluWord op src1 src2 (regCode dest)
  | .cmp src1 src2 => aluWord op src1 src2 0
  | .pop reg => wordOf op 0 (regCode reg) 0 0
  | .push reg => wordOf op 0 (regCode reg) 0 0
  | .loadb addr reg => memWord op addr reg
  | .storeb addr reg => memWord op addr reg
  | .loadh addr reg => memWord op addr reg
  | .storeh addr reg => memWord op addr reg
  | .load addr reg => memWord op addr reg
  | .store addr reg => memWord op addr reg
  | .jp cond dest => condWord op dest.bit26 (m.condCode cond) dest.low
  | .call cond dest => condWord op dest.bit26 (m.condCode cond) dest.low
  | .jr cond off => condWord op 1 (m.condCode cond) (immLow off)
  | .ret cond => condWord op 0 (m.condCode cond) 0b00
  | .reti cond => condWord op 0 (m.condCode cond) 0b01
  | .retn cond => condWord op 0 (m.condCode cond) 0b11
  | .halt cond => condWord op 0 (m.condCode cond) 0

/-- The word of an instruction. -/
def encode (i : Instr) : Word := encodeWith defaultMaps i

/-! ## The bits a format reads (R86 to R94); the others are ignored (R97) -/

/-- The bits of an immediate-or-register format: bit 26 and, below it, bits 19..0 or 19..17. -/
def RegImm.care : RegImm → Word
  | .imm _ => 0x040FFFFF
  | .reg _ => 0x040E0000

def Addr.care : Addr → Word
  | .abs _ => 0x078FFFFF
  | .base _ _ => 0x07FFFFFF

def MoveSrc.care : MoveSrc → Word
  | .sr => 0x00200000
  | .imm _ => 0x042FFFFF
  | .reg _ => 0x042E0000

def MoveDst.care : MoveDst → Word
  | .sr => 0x00100000
  | .reg _ => 0x03900000

/-- The bits of the word that decide that it is this instruction: a word is the instruction exactly when it agrees with the
instruction's encoding on them. -/
def careMask : Instr → Word
  | .move src dest => 0xF8000000 ||| src.care ||| dest.care
  | .or _ src2 _ => 0xFBF00000 ||| src2.care
  | .and _ src2 _ => 0xFBF00000 ||| src2.care
  | .xor _ src2 _ => 0xFBF00000 ||| src2.care
  | .add _ src2 _ => 0xFBF00000 ||| src2.care
  | .adc _ src2 _ => 0xFBF00000 ||| src2.care
  | .sub _ src2 _ => 0xFBF00000 ||| src2.care
  | .sbc _ src2 _ => 0xFBF00000 ||| src2.care
  | .rotl _ src2 _ => 0xFBF00000 ||| src2.care
  | .rotr _ src2 _ => 0xFBF00000 ||| src2.care
  | .shl _ src2 _ => 0xFBF00000 ||| src2.care
  | .shr _ src2 _ => 0xFBF00000 ||| src2.care
  | .ashr _ src2 _ => 0xFBF00000 ||| src2.care
  | .cmp _ src2 => 0xF8700000 ||| src2.care
  | .pop _ => 0xFB800000
  | .push _ => 0xFB800000
  | .loadb addr _ => 0xF8000000 ||| addr.care
  | .storeb addr _ => 0xF8000000 ||| addr.care
  | .loadh addr _ => 0xF8000000 ||| addr.care
  | .storeh addr _ => 0xF8000000 ||| addr.care
  | .load addr _ => 0xF8000000 ||| addr.care
  | .store addr _ => 0xF8000000 ||| addr.care
  | .jp _ dest => 0xFBC00000 ||| dest.care
  | .call _ dest => 0xFBC00000 ||| dest.care
  | .jr _ _ => 0xFBCFFFFF
  | .ret _ => 0xFBC00001
  | .reti _ => 0xFBC00003
  | .retn _ => 0xFBC00003
  | .halt _ => 0xFBC00000

/-! ## The host's question on a row of the opcode table -/

/-- The instruction the decoder reads from an instruction whose bits are `w`, numbered as the opcode table numbers them: the
word is laid out in memory order and given to `decodeBytes`. -/
def decodeTableWord (nbits w : Nat) : Option Instr :=
  match decodeBytes (wordBytes (BitVec.ofNat 32 (w % 2 ^ nbits))) with
  | .ok (i, _) => some i
  | .error _ => none

end Sys2Proof
end

