-- ==== Sys2Proof/Machine/Flags.lean ====
section
/-! DEFINITION. The bits of the status register (R27), the condition evaluator (R122), and every value-and-flag computation:
the adder and the subtractor (R150, R151), the logical results (R159 to R161), the shifts and rotates (R180 to R186). -/

namespace Sys2Proof.Machine

/-! ## The status register's bits (R26, R27) -/

/-- The named bits of sr (R27). -/
inductive Flag where
  | n | c | v | z
  | eint0 | eint1 | eint2 | gie
  | int0 | int1 | int2
deriving DecidableEq, Repr

/-- The bit of sr a flag stands at (R27; the weights, 90_conflicts.md C1, C7). -/
def Flag.bit : Flag → Nat
  | .n => 0
  | .c => 1
  | .v => 2
  | .z => 3
  | .eint0 => 4
  | .eint1 => 5
  | .eint2 => 6
  | .gie => 7
  | .int0 => 8
  | .int1 => 9
  | .int2 => 10

/-- The get-flag primitive (R26). -/
def getFlag (sr : Word) (f : Flag) : Bool := sr.getLsbD f.bit

/-- The set-flag primitive: masks or ors the flag's bit, and no other (R26). -/
def setFlag (sr : Word) (f : Flag) (b : Bool) : Word :=
  if b then sr ||| (1#32 <<< f.bit) else sr &&& ~~~(1#32 <<< f.bit)

/-- N, C, V and Z written; no other bit of sr changes (R152, R181). -/
def setNCVZ (sr : Word) (n c v z : Bool) : Word :=
  setFlag (setFlag (setFlag (setFlag sr .n n) .c c) .v v) .z z

/-! ## The condition evaluator -/

/-- Whether a condition holds under the flags of sr (R121, R122). -/
def condHolds (t : Cond) (sr : Word) : Bool :=
  let n := getFlag sr .n
  let c := getFlag sr .c
  let v := getFlag sr .v
  let z := getFlag sr .z
  match t with
  | .always => true
  | .nSet => n
  | .nClear => !n
  | .cSet => c
  | .cClear => !c
  | .vSet => v
  | .vClear => !v
  | .zSet => z
  | .zClear => !z
  | .cOrZ => c || z
  | .notCAndNotZ => !c && !z
  | .nXorV => n != v
  | .nXorVOrZ => n != v || z
  | .nEqV => n == v
  | .nEqVAndNotZ => n == v && !z

/-! ## Results with their C and V -/

/-- What an ALU operation gives: the 32-bit result and the C and V flags (N and Z follow from the result, R152). -/
structure AluResult where
  res : Word
  c : Bool
  v : Bool
deriving DecidableEq, Repr

/-- The parameter SUB_C_CONVENTION, the default (decision D4; log entry 8). -/
def subCConvention : Config.SubCConvention := .borrow

/-- The parameter SHIFT_COUNT_BITS, the default (decision D5; log entry 9). -/
def shiftCountBits : Nat := 5

/-- The adder (R150): carry out of bit 31, and overflow as the carry into bit 31 against the carry out of it. -/
def addC (a b : Word) (cin : Bool) : AluResult :=
  let s := a.toNat + b.toNat + cin.toNat
  let c32 := s / 2 ^ 32 == 1
  let c31 := (a.toNat % 2 ^ 31 + b.toNat % 2 ^ 31 + cin.toNat) / 2 ^ 31 == 1
  { res := BitVec.ofNat 32 s, c := c32, v := c31 != c32 }

/-- The subtractor (R151): `a + ~b + (1 - bin)`, with C by the convention. -/
def subB (conv : Config.SubCConvention) (a b : Word) (bin : Bool) : AluResult :=
  let r := addC a (~~~b) (!bin)
  match conv with
  | .borrow => { r with c := !r.c }
  | .notBorrow => r

/-- SBC's borrow-in, from the C flag, by the convention (R158). -/
def sbcBorrowIn (conv : Config.SubCConvention) (c : Bool) : Bool :=
  match conv with
  | .borrow => c
  | .notBorrow => !c

/-- A logical result: C = V = 0 (R159, R160, R161). -/
def logical (res : Word) : AluResult := { res := res, c := false, v := false }

/-- The shift count: the low SHIFT_COUNT_BITS bits of the second operand (R180). -/
def shiftCount (countBits : Nat) (b : Word) : Nat := b.toNat % 2 ^ countBits

/-- SHL by a count below 32 (R182). -/
def shlC (a : Word) (k : Nat) : AluResult :=
  { res := a <<< k, c := k != 0 && a.getLsbD (32 - k), v := false }

/-- SHR by a count below 32 (R183). -/
def shrC (a : Word) (k : Nat) : AluResult :=
  { res := a >>> k, c := k != 0 && a.getLsbD (k - 1), v := false }

/-- ASHR by a count below 32 (R184). -/
def ashrC (a : Word) (k : Nat) : AluResult :=
  { res := a.sshiftRight k, c := k != 0 && a.getLsbD (k - 1), v := false }

/-- ROTL by a count below 32 (R185). -/
def rotlC (a : Word) (k : Nat) : AluResult :=
  { res := if k = 0 then a else (a <<< k) ||| (a >>> (32 - k)), c := k != 0 && a.getLsbD (32 - k), v := false }

/-- ROTR by a count below 32 (R186). -/
def rotrC (a : Word) (k : Nat) : AluResult :=
  { res := if k = 0 then a else (a >>> k) ||| (a <<< (32 - k)), c := k != 0 && a.getLsbD (k - 1), v := false }

/-- A shift or rotate by a count below 32 (R182 to R186). -/
def narrowShift (op : Config.ShiftOp) (a : Word) (k : Nat) : AluResult :=
  match op with
  | .shl => shlC a k
  | .shr => shrC a k
  | .ashr => ashrC a k
  | .rotl => rotlC a k
  | .rotr => rotrC a k

/-- A shift or rotate by any count. DESIGN CHOICE (decision D5 says that the source gives no result for a count of 32 or more; log
entry 21): there the result and C are free values; V is 0 all the same (R181), and N and Z follow from the result (R152). -/
def shiftBy (op : Config.ShiftOp) (a : Word) (k : Nat) : AluResult :=
  if k < 32 then narrowShift op a k
  else { res := Config.wideShift op a k, c := Config.wideShiftC op a k, v := false }

end Sys2Proof.Machine
end

