-- ==== Sys2Proof/Machine/State.lean ====
section
/-! DEFINITION. The state of the core (10_state.md), the fault record and the outcomes' reason types, the host interactions
still to be taken, the events emitted, and the state after reset (R34, R342). State is plain data. -/

namespace Sys2Proof.Machine

/-- The general registers r0..r7 (R20); r7 is the stack pointer (R21). -/
structure Regs where
  r0 : Word
  r1 : Word
  r2 : Word
  r3 : Word
  r4 : Word
  r5 : Word
  r6 : Word
  r7 : Word
deriving DecidableEq, Repr

/-- The run state of the cycle controller (R29). -/
inductive RunState where
  | stopped
  | running
  | paused
deriving DecidableEq, Repr

/-- What an access to memory is for (R300). -/
inductive Access where
  | fetch
  | read
  | write
deriving DecidableEq, Repr

/-- The access widths (R61). -/
inductive Width where
  | byte
  | half
  | word
deriving DecidableEq, Repr

/-- Bytes of an access (R61). -/
def Width.bytes : Width → Nat
  | .byte => 1
  | .half => 2
  | .word => 4

/-- The faults of the core, with what each records (R300, decision D21). A fault is TAKEN: the step that raises one answers the
NEXT state R304 describes, with the record in `State.fault`, so no step ends in `Outcome.fault` (log entry 3; safe: the state
after a fault is the spec's own, and what the core then does is modelled). -/
inductive Fault where
  /-- R301: raised by the cycle when the fetched word does not decode; safe. -/
  | decodeFailure (pc word : Word)
  /-- R302: raised by the fetch or by an instruction's one access when it reaches outside memory; `addr` is the aligned address;
  safe. -/
  | addressOutOfBounds (pc addr : Word) (access : Access) (width : Width)
  /-- R303: an unknown condition tag; raised by nothing, since `Cond` is closed and has no such tag; the constructor keeps
  the record kinds of R300 complete; safe. -/
  | internalConsistency (pc : Word) (tag : Cond)
deriving DecidableEq, Repr

/-- Why a step has no meaning. -/
inductive Refusal where
  /-- Raised by an arm of `exec` whose instruction has no meaning yet; no arm raises it now; safe. -/
  | notModelled (mnemonic : String)
deriving DecidableEq, Repr

/-- The host interactions that act on the core (R274, ports tick, cmd and load; R278). -/
inductive HostEvent where
  | tick
  | run
  | pause
  | stop
  | step
  | reset
  | load (image : List Byte)
deriving DecidableEq, Repr

/-- The lifecycle events the core emits (R274, port event; R275). -/
inductive Event where
  | beforeRun
  | beforeCycle
  | beforeExecute (i : Instr)
  | afterCycle
  | onStop
deriving DecidableEq, Repr

/-- Memory: the cells that do not hold 0, as (address, byte) pairs, addresses strictly rising (R50; an unlisted cell reads 0,
R65, R342, log entry 4). -/
abbrev Memory := List Host.Cell

/-- The state of the core, and with it the two ends of its interface: the host interactions still to be taken (log entry 1)
and the events emitted so far (log entry 2). -/
structure State where
  /-- r0..r7 (R20) -/
  regs : Regs
  /-- the program counter (R22, R23) -/
  pc : Word
  /-- the status register (R25, R27) -/
  sr : Word
  /-- the interrupt-in-flight bit (R28) -/
  iif : Bool
  /-- memory (R50) -/
  mem : Memory
  /-- the cycle controller's run state (R29) -/
  runState : RunState
  /-- the fault record (R30, R300) -/
  fault : Option Fault
  /-- the model's own: host interactions still to be taken, the next one first (R273, R274) -/
  pending : List HostEvent
  /-- the model's own: events emitted, the latest first (R274, R275) -/
  trace : List Event
deriving DecidableEq, Repr

/-- Every general register 0 (R34). -/
def Regs.zero : Regs := { r0 := 0, r1 := 0, r2 := 0, r3 := 0, r4 := 0, r5 := 0, r6 := 0, r7 := 0 }

/-- The state after reset (R34, R340), in which a model starts, with memory all zero (R342, decision D22; log entry 4). Nothing
is pending and nothing has been emitted (log entries 1 and 2). -/
def State.reset : State where
  regs := Regs.zero
  pc := 0
  sr := 0
  iif := Config.resetIif
  mem := []
  runState := .stopped
  fault := none
  pending := []
  trace := []

end Sys2Proof.Machine
end

