-- ==== Sys2Proof/Machine/Ops.lean ====
section
/-! DEFINITION. The named operations: registers, the pc, the status register, memory and its accesses, events, taking a fault
(the one shared operation for it), and the return from a subroutine or an interrupt beside it. -/

namespace Sys2Proof.Machine

/-! ## Registers -/

/-- x[r] (R8). -/
def Regs.get (x : Regs) : Reg → Word
  | .r0 => x.r0
  | .r1 => x.r1
  | .r2 => x.r2
  | .r3 => x.r3
  | .r4 => x.r4
  | .r5 => x.r5
  | .r6 => x.r6
  | .r7 => x.r7

/-- x[r] <- v (R8; a Word is masked to 32 bits already, R10). -/
def Regs.set (x : Regs) (r : Reg) (v : Word) : Regs :=
  match r with
  | .r0 => { x with r0 := v }
  | .r1 => { x with r1 := v }
  | .r2 => { x with r2 := v }
  | .r3 => { x with r3 := v }
  | .r4 => { x with r4 := v }
  | .r5 => { x with r5 := v }
  | .r6 => { x with r6 := v }
  | .r7 => { x with r7 := v }

/-- The value of a general register. -/
def State.reg (s : State) (r : Reg) : Word := s.regs.get r

/-- A general register written. -/
def State.setReg (s : State) (r : Reg) (v : Word) : State := { s with regs := s.regs.set r v }

/-! ## The pc, sr, iif, the run state, events -/

/-- pc <- v, the low two bits forced to zero (R23). -/
def State.setPc (s : State) (v : Word) : State := { s with pc := v &&& 0xFFFFFFFC#32 }

/-- pc <- pc_i + 4 (R265); pc holds pc_i during the instruction (R24). -/
def State.advance (s : State) : State := s.setPc (s.pc + 4#32)

def State.setSr (s : State) (v : Word) : State := { s with sr := v }

/-- One bit of sr (R26). -/
def State.flag (s : State) (f : Flag) : Bool := getFlag s.sr f

/-- One bit of sr written, and no other (R26). -/
def State.setFlag (s : State) (f : Flag) (b : Bool) : State := s.setSr (Machine.setFlag s.sr f b)

def State.setIif (s : State) (b : Bool) : State := { s with iif := b }

def State.setMem (s : State) (m : Memory) : State := { s with mem := m }

def State.setRunState (s : State) (r : RunState) : State := { s with runState := r }

/-- An event emitted (R275). -/
def State.emit (s : State) (e : Event) : State := { s with trace := e :: s.trace }

/-- Into stopped by stop, by a taken HALT: on_stop is emitted (R266, R270, R275). -/
def State.halt (s : State) : State := (s.setRunState .stopped).emit .onStop

/-! ## Memory cells -/

/-- mem[a]; an unlisted cell holds 0 (R50, R65). -/
def Memory.read : Memory → Nat → Byte
  | [], _ => 0#8
  | c :: m, a => if c.1 = a then c.2 else Memory.read m a

/-- A cell put in its place by address. -/
def Memory.insert : Memory → Host.Cell → Memory
  | [], c => [c]
  | d :: m, c => if c.1 < d.1 then c :: d :: m else d :: Memory.insert m c

/-- mem[a] <- v; a cell that holds 0 is not listed. -/
def Memory.write (m : Memory) (a : Nat) (v : Byte) : Memory :=
  let rest := m.filter fun c => c.1 != a
  if v = 0#8 then rest else Memory.insert rest (a, v)

/-- Addresses strictly rise from `low` on, below MEM_SIZE, and no listed byte is 0. -/
def Memory.wfFrom : Nat → Memory → Bool
  | _, [] => true
  | low, c :: m => decide (low ≤ c.1) && decide (c.1 < Config.memSize) && (c.2 != 0#8) && Memory.wfFrom (c.1 + 1) m

/-- The canonical form: addresses strictly rising and below MEM_SIZE, no listed byte 0. -/
def Memory.wf (m : Memory) : Bool := Memory.wfFrom 0 m

/-- The cells of an image from address k on (R64). -/
def Memory.imageFrom : Nat → List Byte → Memory
  | _, [] => []
  | k, b :: bs => if b = 0#8 then Memory.imageFrom (k + 1) bs else (k, b) :: Memory.imageFrom (k + 1) bs

/-- Memory zero-filled, then the image from address 0 (R64, R65). -/
def Memory.ofImage (bytes : List Byte) : Memory := Memory.imageFrom 0 bytes

/-- Two cells, the low byte at the lower address (R53). -/
def Memory.readHalf (m : Memory) (a : Nat) : BitVec 16 := joinHalf (m.read a) (m.read (a + 1))

/-- MemRead(a, n) of cells that exist (R52, R53, R54), zero-extended. -/
def Memory.readN (m : Memory) (a : Nat) : Width → Word
  | .byte => (m.read a).setWidth 32
  | .half => (m.readHalf a).setWidth 32
  | .word => joinWord (m.readHalf a) (m.readHalf (a + 2))

/-- MemWrite(a, n, v) of cells that exist (R55, R56, R57). -/
def Memory.writeN (m : Memory) (a : Nat) (w : Width) (v : Word) : Memory :=
  match w with
  | .byte => m.write a (byteOf v 0)
  | .half => (m.write a (byteOf v 0)).write (a + 1) (byteOf v 1)
  | .word => (((m.write a (byteOf v 0)).write (a + 1) (byteOf v 1)).write (a + 2) (byteOf v 2)).write (a + 3) (byteOf v 3)

/-! ## Accesses -/

/-- The byte of memory at an address. -/
def State.readByte (s : State) (a : Nat) : Byte := s.mem.read a

/-- Every byte of the access lies in memory (R58). -/
def inBounds (a : Word) (w : Width) : Bool := decide (a.toNat + w.bytes ≤ Config.memSize)

/-- MemRead(a, n), or AddressOutOfBounds(a) (R52 to R54, R58, R302). -/
def State.memRead (s : State) (access : Access) (a : Word) (w : Width) : Except Fault Word :=
  if inBounds a w then .ok (s.mem.readN a.toNat w) else .error (.addressOutOfBounds s.pc a access w)

/-- MemWrite(a, n, v), or AddressOutOfBounds(a) and nothing written (R55 to R58, R302). -/
def State.memWrite (s : State) (a : Word) (w : Width) (v : Word) : Except Fault State :=
  if inBounds a w then .ok (s.setMem (s.mem.writeN a.toNat w v)) else .error (.addressOutOfBounds s.pc a .write w)

/-! ## Taking a fault -/

/-- The numeric code of a fault's kind (R300). -/
def Fault.code : Fault → Nat
  | .decodeFailure _ _ => 1
  | .addressOutOfBounds _ _ _ _ => 2
  | .internalConsistency _ _ => 3

/-- Taking a fault (R304), applied to the state at the START of the cycle, so that registers, sr, iif, memory and pc are as they
were then: the record is set, the core stops, on_stop is emitted. There is no trap entry (R305). -/
def State.raise (s : State) (f : Fault) : State := { s.halt with fault := some f }

/-- The end of an instruction: its next state, or the fault taken from the state it began in. -/
def State.settle (s : State) : Except Fault State → Host.Outcome State Fault Refusal
  | .ok t => .next t
  | .error f => .next (s.raise f)

/-! ## The stack, and the return -/

/-- x[7] <- x[7] - 4, then the word is stored at x[7] (R208); `v` reads the state after the decrement (R9, decision D7). -/
def State.pushWord (s : State) (v : State → Word) : Except Fault State :=
  let s1 := s.setReg .r7 (s.reg .r7 - 4#32)
  s1.memWrite (s1.reg .r7 &&& 0xFFFFFFFC#32) .word (v s1)

/-- The word at x[7] (R209). -/
def State.stackTop (s : State) : Except Fault Word := s.memRead .read (s.reg .r7 &&& 0xFFFFFFFC#32) .word

/-- The return common to RET, RETI and RETN (R234 to R236): pop, then pc <- (ra & 0xFFFFFFFC) + 4 (decision D3). -/
def State.returnPop (s : State) : Except Fault State :=
  match s.stackTop with
  | .ok ra => .ok ((s.setReg .r7 (s.reg .r7 + 4#32)).setPc ((ra &&& 0xFFFFFFFC#32) + 4#32))
  | .error f => .error f

end Sys2Proof.Machine
end

