-- ==== Sys2Proof/Machine/Operands.lean ====
section
/-! DEFINITION. The operand forms (R86, R87, R89, R92) and the operations that the instructions of one shape share: an ALU result
written with its flags, a load, a store, and a conditional instruction. -/

namespace Sys2Proof.Machine

/-- The value of an immediate-or-register operand (R153, R231). -/
def State.regImm (s : State) : RegImm → Word
  | .imm v => v
  | .reg r => s.reg r

/-- The value of MOVE's source: the low 8 bits of sr, an immediate, a register (R140). -/
def State.moveSrc (s : State) : MoveSrc → Word
  | .sr => s.sr &&& 0xFF#32
  | .imm v => v
  | .reg r => s.reg r

/-- MOVE's destination written: a register, or the low 8 bits of sr with its high bits preserved (R140). -/
def State.moveDst (s : State) (v : Word) : MoveDst → State
  | .sr => s.setSr ((s.sr &&& 0xFFFFFF00#32) ||| (v &&& 0xFF#32))
  | .reg r => s.setReg r v

/-- The effective address before alignment (R200). -/
def State.ea (s : State) : Addr → Word
  | .abs a => a
  | .base rb off => s.reg rb + off

/-- Forced alignment (R60). -/
def align (w : Width) (a : Word) : Word :=
  match w with
  | .byte => a
  | .half => a &&& 0xFFFFFFFE#32
  | .word => a &&& 0xFFFFFFFC#32

/-- N, C, V and Z written from an ALU result, no other bit of sr (R152, R181). -/
def State.setAluFlags (s : State) (r : AluResult) : State :=
  s.setSr (setNCVZ s.sr r.res.msb r.c r.v (r.res == 0#32))

/-- An ALU instruction's writes: x[rd], the flags, pc (R154 and the rules like it). -/
def State.aluWrite (s : State) (rd : Reg) (r : AluResult) : State :=
  ((s.setReg rd r.res).setAluFlags r).advance

/-- A shift or rotate with its count in SHIFT_COUNT_BITS bits (R180 to R186). -/
def State.shiftWrite (s : State) (countBits : Nat) (op : Config.ShiftOp) (src1 : Reg) (src2 : RegImm) (dest : Reg) : State :=
  s.aluWrite dest (shiftBy op (s.reg src1) (shiftCount countBits (s.regImm src2)))

/-- A load of one width, zero-extended (R202, R203, R204). -/
def State.loadReg (s : State) (w : Width) (addr : Addr) (rd : Reg) : Except Fault State :=
  match s.memRead .read (align w (s.ea addr)) w with
  | .ok v => .ok (s.setReg rd v).advance
  | .error f => .error f

/-- A store of one width, truncated to it (R205, R206, R207). -/
def State.storeReg (s : State) (w : Width) (addr : Addr) (rd : Reg) : Except Fault State :=
  match s.memWrite (align w (s.ea addr)) w (s.reg rd) with
  | .ok t => .ok t.advance
  | .error f => .error f

/-- A conditional instruction: its effect when the condition holds, else only pc <- pc_i + 4 (R230). -/
def State.whenHolds (s : State) (t : Cond) (taken : Except Fault State) : Host.Outcome State Fault Refusal :=
  if condHolds t s.sr then s.settle taken else .next s.advance

end Sys2Proof.Machine
end

