-- ==== Sys2Proof/Machine/Params.lean ====
section
/-! DEFINITION. The parameters of R4 at their default values. -/

namespace Sys2Proof.Machine

/-- The default of every parameter of R4: OPCODE_MAP and COND_MAP (log entries 5 and 6), SUB_C_CONVENTION (log entry 8),
SHIFT_COUNT_BITS (log entry 9), and FREQ = 1 (the source's; log entry 14). -/
def defaultParams : Config.Params where
  maps := defaultMaps
  subC := subCConvention
  shiftCountBits := shiftCountBits
  freq := 1

end Sys2Proof.Machine
end

