-- ==== Sys2Proof/Machine/Alu.lean ====
section
/-! DEFINITION. The arithmetic, compare and logical instructions (42_arith_logic.md). Operands: R153, both read before the
destination is written. SUB, SBC and CMP stand first for any value of the parameters, then at the default. -/

namespace Sys2Proof.Machine

/-- OR (R160). -/
def execOr (src1 : Reg) (src2 : RegImm) (dest : Reg) (s : State) : Host.Outcome State Fault Refusal :=
  .next (s.aluWrite dest (logical (s.reg src1 ||| s.regImm src2)))

/-- AND (R159). -/
def execAnd (src1 : Reg) (src2 : RegImm) (dest : Reg) (s : State) : Host.Outcome State Fault Refusal :=
  .next (s.aluWrite dest (logical (s.reg src1 &&& s.regImm src2)))

/-- XOR (R161). -/
def execXor (src1 : Reg) (src2 : RegImm) (dest : Reg) (s : State) : Host.Outcome State Fault Refusal :=
  .next (s.aluWrite dest (logical (s.reg src1 ^^^ s.regImm src2)))

/-- ADD (R154). -/
def execAdd (src1 : Reg) (src2 : RegImm) (dest : Reg) (s : State) : Host.Outcome State Fault Refusal :=
  .next (s.aluWrite dest (addC (s.reg src1) (s.regImm src2) false))

/-- ADC (R155). -/
def execAdc (src1 : Reg) (src2 : RegImm) (dest : Reg) (s : State) : Host.Outcome State Fault Refusal :=
  .next (s.aluWrite dest (addC (s.reg src1) (s.regImm src2) (s.flag .c)))

/-- SUB (R156), for any SUB_C_CONVENTION. -/
def execSubWith (p : Config.Params) (src1 : Reg) (src2 : RegImm) (dest : Reg) (s : State) :
    Host.Outcome State Fault Refusal :=
  .next (s.aluWrite dest (subB p.subC (s.reg src1) (s.regImm src2) false))

/-- SUB (R156). -/
def execSub (src1 : Reg) (src2 : RegImm) (dest : Reg) (s : State) : Host.Outcome State Fault Refusal :=
  execSubWith defaultParams src1 src2 dest s

/-- SBC (R158), for any SUB_C_CONVENTION. -/
def execSbcWith (p : Config.Params) (src1 : Reg) (src2 : RegImm) (dest : Reg) (s : State) :
    Host.Outcome State Fault Refusal :=
  .next (s.aluWrite dest (subB p.subC (s.reg src1) (s.regImm src2) (sbcBorrowIn p.subC (s.flag .c))))

/-- SBC (R158). -/
def execSbc (src1 : Reg) (src2 : RegImm) (dest : Reg) (s : State) : Host.Outcome State Fault Refusal :=
  execSbcWith defaultParams src1 src2 dest s

/-- CMP (R157), for any SUB_C_CONVENTION: SUB's flags, the result discarded. -/
def execCmpWith (p : Config.Params) (src1 : Reg) (src2 : RegImm) (s : State) : Host.Outcome State Fault Refusal :=
  .next (s.setAluFlags (subB p.subC (s.reg src1) (s.regImm src2) false)).advance

/-- CMP (R157). -/
def execCmp (src1 : Reg) (src2 : RegImm) (s : State) : Host.Outcome State Fault Refusal :=
  execCmpWith defaultParams src1 src2 s

end Sys2Proof.Machine
end

