-- ==== Sys2Proof/Machine/Control.lean ====
section
/-! DEFINITION. Control transfer and HALT (45_control.md). Each takes effect only when its condition holds (R230); the pc each
leaves is that of the table of R265 (decision D3; log entry 7). -/

namespace Sys2Proof.Machine

/-- JP (R231). -/
def execJp (cond : Cond) (dest : RegImm) (s : State) : Host.Outcome State Fault Refusal :=
  s.whenHolds cond (.ok (s.setPc (s.regImm dest)))

/-- CALL (R232): push pc_i, then the target, read after the push (decision D7). -/
def execCall (cond : Cond) (dest : RegImm) (s : State) : Host.Outcome State Fault Refusal :=
  s.whenHolds cond <|
    match s.pushWord (fun s1 => s1.pc) with
    | .ok t => .ok (t.setPc (t.regImm dest))
    | .error f => .error f

/-- JR (R233). -/
def execJr (cond : Cond) (off : Word) (s : State) : Host.Outcome State Fault Refusal :=
  s.whenHolds cond (.ok (s.setPc (s.pc + off)))

/-- RET (R234). -/
def execRet (cond : Cond) (s : State) : Host.Outcome State Fault Refusal :=
  s.whenHolds cond s.returnPop

/-- RETI (R235): RET, then GIE <- 1. -/
def execReti (cond : Cond) (s : State) : Host.Outcome State Fault Refusal :=
  s.whenHolds cond <|
    match s.returnPop with
    | .ok t => .ok (t.setFlag .gie true)
    | .error f => .error f

/-- RETN (R236): RET, then iif <- 1. -/
def execRetn (cond : Cond) (s : State) : Host.Outcome State Fault Refusal :=
  s.whenHolds cond <|
    match s.returnPop with
    | .ok t => .ok (t.setIif true)
    | .error f => .error f

/-- HALT (R237): run_state <- stopped; pc advances whether it is taken or not. -/
def execHalt (cond : Cond) (s : State) : Host.Outcome State Fault Refusal :=
  s.whenHolds cond (.ok s.halt.advance)

end Sys2Proof.Machine
end

