-- ==== Sys2Proof/Machine/LoadStore.lean ====
section
/-! DEFINITION. Loads, stores and the stack (44_load_store.md). No flag is written; an access outside memory takes the fault
AddressOutOfBounds with nothing else changed (R304). -/

namespace Sys2Proof.Machine

/-- POP (R209): the word at x[7] into x[rd], then x[7] <- x[7] + 4, in that order (R9, decision D7). -/
def execPop (reg : Reg) (s : State) : Host.Outcome State Fault Refusal :=
  s.settle <|
    match s.stackTop with
    | .ok v =>
      let s1 := s.setReg reg v
      .ok (s1.setReg .r7 (s1.reg .r7 + 4#32)).advance
    | .error f => .error f

/-- PUSH (R208). -/
def execPush (reg : Reg) (s : State) : Host.Outcome State Fault Refusal :=
  s.settle <|
    match s.pushWord (fun s1 => s1.reg reg) with
    | .ok t => .ok t.advance
    | .error f => .error f

/-- LOADB (R204). -/
def execLoadb (addr : Addr) (reg : Reg) (s : State) : Host.Outcome State Fault Refusal :=
  s.settle (s.loadReg .byte addr reg)

/-- STOREB (R207). -/
def execStoreb (addr : Addr) (reg : Reg) (s : State) : Host.Outcome State Fault Refusal :=
  s.settle (s.storeReg .byte addr reg)

/-- LOADH (R203). -/
def execLoadh (addr : Addr) (reg : Reg) (s : State) : Host.Outcome State Fault Refusal :=
  s.settle (s.loadReg .half addr reg)

/-- STOREH (R206). -/
def execStoreh (addr : Addr) (reg : Reg) (s : State) : Host.Outcome State Fault Refusal :=
  s.settle (s.storeReg .half addr reg)

/-- LOAD (R202). -/
def execLoad (addr : Addr) (reg : Reg) (s : State) : Host.Outcome State Fault Refusal :=
  s.settle (s.loadReg .word addr reg)

/-- STORE (R205). -/
def execStore (addr : Addr) (reg : Reg) (s : State) : Host.Outcome State Fault Refusal :=
  s.settle (s.storeReg .word addr reg)

end Sys2Proof.Machine
end

