-- ==== Sys2Proof/Machine/Move.lean ====
section
/-! DEFINITION. MOVE (41_move.md). -/

namespace Sys2Proof.Machine

/-- MOVE (R140 to R145). -/
def execMove (src : MoveSrc) (dest : MoveDst) (s : State) : Host.Outcome State Fault Refusal :=
  .next (s.moveDst (s.moveSrc src) dest).advance

end Sys2Proof.Machine
end

