-- ==== Sys2Proof/Machine/Shift.lean ====
section
/-! DEFINITION. The shift and rotate instructions (43_shift_rotate.md): src1 is the value shifted, src2 gives the count (R180). Each
stands first for any value of the parameters, then at the default. -/

namespace Sys2Proof.Machine

/-- ROTL (R185), for any SHIFT_COUNT_BITS. -/
def execRotlWith (p : Config.Params) (src1 : Reg) (src2 : RegImm) (dest : Reg) (s : State) :
    Host.Outcome State Fault Refusal :=
  .next (s.shiftWrite p.shiftCountBits .rotl src1 src2 dest)

/-- ROTL (R185). -/
def execRotl (src1 : Reg) (src2 : RegImm) (dest : Reg) (s : State) : Host.Outcome State Fault Refusal :=
  execRotlWith defaultParams src1 src2 dest s

/-- ROTR (R186), for any SHIFT_COUNT_BITS. -/
def execRotrWith (p : Config.Params) (src1 : Reg) (src2 : RegImm) (dest : Reg) (s : State) :
    Host.Outcome State Fault Refusal :=
  .next (s.shiftWrite p.shiftCountBits .rotr src1 src2 dest)

/-- ROTR (R186). -/
def execRotr (src1 : Reg) (src2 : RegImm) (dest : Reg) (s : State) : Host.Outcome State Fault Refusal :=
  execRotrWith defaultParams src1 src2 dest s

/-- SHL (R182), for any SHIFT_COUNT_BITS. -/
def execShlWith (p : Config.Params) (src1 : Reg) (src2 : RegImm) (dest : Reg) (s : State) :
    Host.Outcome State Fault Refusal :=
  .next (s.shiftWrite p.shiftCountBits .shl src1 src2 dest)

/-- SHL (R182). -/
def execShl (src1 : Reg) (src2 : RegImm) (dest : Reg) (s : State) : Host.Outcome State Fault Refusal :=
  execShlWith defaultParams src1 src2 dest s

/-- SHR (R183), for any SHIFT_COUNT_BITS. -/
def execShrWith (p : Config.Params) (src1 : Reg) (src2 : RegImm) (dest : Reg) (s : State) :
    Host.Outcome State Fault Refusal :=
  .next (s.shiftWrite p.shiftCountBits .shr src1 src2 dest)

/-- SHR (R183). -/
def execShr (src1 : Reg) (src2 : RegImm) (dest : Reg) (s : State) : Host.Outcome State Fault Refusal :=
  execShrWith defaultParams src1 src2 dest s

/-- ASHR (R184), for any SHIFT_COUNT_BITS. -/
def execAshrWith (p : Config.Params) (src1 : Reg) (src2 : RegImm) (dest : Reg) (s : State) :
    Host.Outcome State Fault Refusal :=
  .next (s.shiftWrite p.shiftCountBits .ashr src1 src2 dest)

/-- ASHR (R184). -/
def execAshr (src1 : Reg) (src2 : RegImm) (dest : Reg) (s : State) : Host.Outcome State Fault Refusal :=
  execAshrWith defaultParams src1 src2 dest s

end Sys2Proof.Machine
end

