-- ==== Sys2Proof/Machine/Dispatch.lean ====
section
/-! DEFINITION. One arm per constructor of Instr (R263). -/

namespace Sys2Proof.Machine

/-- The effect of one instruction on the state its cycle begins in (R260, "execute d"). -/
def exec (i : Instr) (s : State) : Host.Outcome State Fault Refusal :=
  match i with
  | .move src dest => Sys2Proof.Machine.execMove src dest s
  | .or src1 src2 dest => Sys2Proof.Machine.execOr src1 src2 dest s
  | .and src1 src2 dest => Sys2Proof.Machine.execAnd src1 src2 dest s
  | .xor src1 src2 dest => Sys2Proof.Machine.execXor src1 src2 dest s
  | .add src1 src2 dest => Sys2Proof.Machine.execAdd src1 src2 dest s
  | .adc src1 src2 dest => Sys2Proof.Machine.execAdc src1 src2 dest s
  | .sub src1 src2 dest => Sys2Proof.Machine.execSub src1 src2 dest s
  | .sbc src1 src2 dest => Sys2Proof.Machine.execSbc src1 src2 dest s
  | .rotl src1 src2 dest => Sys2Proof.Machine.execRotl src1 src2 dest s
  | .rotr src1 src2 dest => Sys2Proof.Machine.execRotr src1 src2 dest s
  | .shl src1 src2 dest => Sys2Proof.Machine.execShl src1 src2 dest s
  | .shr src1 src2 dest => Sys2Proof.Machine.execShr src1 src2 dest s
  | .ashr src1 src2 dest => Sys2Proof.Machine.execAshr src1 src2 dest s
  | .cmp src1 src2 => Sys2Proof.Machine.execCmp src1 src2 s
  | .pop reg => Sys2Proof.Machine.execPop reg s
  | .push reg => Sys2Proof.Machine.execPush reg s
  | .loadb addr reg => Sys2Proof.Machine.execLoadb addr reg s
  | .storeb addr reg => Sys2Proof.Machine.execStoreb addr reg s
  | .loadh addr reg => Sys2Proof.Machine.execLoadh addr reg s
  | .storeh addr reg => Sys2Proof.Machine.execStoreh addr reg s
  | .load addr reg => Sys2Proof.Machine.execLoad addr reg s
  | .store addr reg => Sys2Proof.Machine.execStore addr reg s
  | .jp cond dest => Sys2Proof.Machine.execJp cond dest s
  | .call cond dest => Sys2Proof.Machine.execCall cond dest s
  | .jr cond off => Sys2Proof.Machine.execJr cond off s
  | .ret cond => Sys2Proof.Machine.execRet cond s
  | .reti cond => Sys2Proof.Machine.execReti cond s
  | .retn cond => Sys2Proof.Machine.execRetn cond s
  | .halt cond => Sys2Proof.Machine.execHalt cond s

end Sys2Proof.Machine
end

