-- ==== Sys2Proof/Machine/Cycle.lean ====
section
/-! DEFINITION. The cycle (R260 to R265) and the host interactions (R266 to R278): what each does, taken between cycles. They are
written for any engine, that is for any value of the parameters of R4; `engine` is the one at the defaults. -/

namespace Sys2Proof.Machine

/-! ## One cycle -/

/-- What the parameters of R4 fix of the core: its decoder and the execution of a decoded instruction. -/
structure Engine where
  decode : Word → Except DecodeFailure Instr
  exec : Instr → State → Host.Outcome State Fault Refusal

/-- The engine at the default parameters. -/
def engine : Engine where
  decode := decode
  exec := exec

/-- Fetch: the word at pc (R261). -/
def State.fetch (s : State) : Except Fault Word := s.memRead .fetch s.pc .word

/-- The end of a cycle: after_cycle is emitted unless the cycle faulted (R260, decision D9). -/
def afterExecute : Host.Outcome State Fault Refusal → Host.Outcome State Fault Refusal
  | .next t => .next (if t.fault.isNone then t.emit .afterCycle else t)
  | .fault f => .fault f
  | .refused r => .refused r

/-- The execution of a decoded instruction within its cycle: before_execute, the instruction, after_cycle (R260). -/
def State.runInstr (e : Engine) (s : State) (i : Instr) : Host.Outcome State Fault Refusal :=
  afterExecute (e.exec i (s.emit (.beforeExecute i)))

/-- Decode and execute the fetched word; a decode failure is a fault (R260, R301). -/
def State.runWord (e : Engine) (s : State) (w : Word) : Host.Outcome State Fault Refusal :=
  match e.decode w with
  | .ok i => s.runInstr e i
  | .error _ => .next (s.raise (.decodeFailure s.pc w))

/-- One cycle: fetch, decode, execute (R260); the faults in the order of R307. -/
def State.cycle (e : Engine) (s : State) : Host.Outcome State Fault Refusal :=
  let s1 := s.emit .beforeCycle
  match s1.fetch with
  | .ok w => s1.runWord e w
  | .error f => .next (s1.raise f)

/-! ## Host interactions -/

/-- tick (R268): one cycle while running, nothing in any other state. -/
def State.onTick (e : Engine) (s : State) : Host.Outcome State Fault Refusal :=
  match s.runState with
  | .running => s.cycle e
  | .stopped => .next s
  | .paused => .next s

/-- run (R266, R267): refused while a fault is recorded, else before_run is emitted and the core runs. -/
def State.onRun (s : State) : State :=
  match s.fault with
  | none => (s.emit .beforeRun).setRunState .running
  | some _ => s

/-- pause (R266, R269): no effect unless running. -/
def State.onPause (s : State) : State :=
  match s.runState with
  | .running => s.setRunState .paused
  | .stopped => s
  | .paused => s

/-- stop (R266, R270): stopped, with on_stop, from any state. -/
def State.onStop (s : State) : State := s.halt

/-- step (R266, R271): one cycle while stopped or paused; refused while running or while a fault is recorded. -/
def State.onStep (e : Engine) (s : State) : Host.Outcome State Fault Refusal :=
  match s.fault, s.runState with
  | none, .stopped => s.cycle e
  | none, .paused => s.cycle e
  | none, .running => .next s
  | some _, _ => .next s

/-- reset (R272, R340): every register, sr, iif, pc, the run state and the fault record at their startup values; memory as it
was, and no event emitted. What the host has still to send stays. -/
def State.onReset (s : State) : State :=
  { State.reset with mem := s.mem, pending := s.pending, trace := s.trace }

/-- load (R64, R276): taken only while stopped and only when the image fits; refused otherwise, with no effect. -/
def State.onLoad (s : State) (image : List Byte) : State :=
  match s.runState with
  | .stopped => if image.length ≤ Config.memSize then s.setMem (Memory.ofImage image) else s
  | .running => s
  | .paused => s

/-- What a host interaction does (R266, R278). -/
def State.take (e : Engine) (s : State) : HostEvent → Host.Outcome State Fault Refusal
  | .tick => s.onTick e
  | .run => .next s.onRun
  | .pause => .next s.onPause
  | .stop => .next s.onStop
  | .step => s.onStep e
  | .reset => .next s.onReset
  | .load image => .next (s.onLoad image)

/-- The host interaction the next step takes: the first still pending, or a tick when none is (R268, R273; log entry 1). -/
def State.nextEvent (s : State) : HostEvent :=
  match s.pending with
  | [] => .tick
  | e :: _ => e

/-- That interaction is no longer pending. -/
def State.dropEvent (s : State) : State := { s with pending := s.pending.tail }

/-- What the next step is: the next host interaction, taken whole, between cycles (R273). -/
def State.advanceHost (e : Engine) (s : State) : Host.Outcome State Fault Refusal := s.dropEvent.take e s.nextEvent

/-! ## What the host may see -/

/-- The observe, run_state and fault ports (R274): reading changes nothing (R278). -/
structure Observation where
  regs : Regs
  pc : Word
  sr : Word
  iif : Bool
  mem : Memory
  runState : RunState
  fault : Option Fault
deriving DecidableEq, Repr

def State.observe (s : State) : Observation where
  regs := s.regs
  pc := s.pc
  sr := s.sr
  iif := s.iif
  mem := s.mem
  runState := s.runState
  fault := s.fault

/-! ## Placing an instruction where the next step runs it -/

/-- The state with a word stored where the fetch reads it (where that is memory), the core running with no fault recorded, and a tick the next thing
the host sends, so that the very next step runs the word (log entry 12). -/
def State.placeWord (s : State) (w : Word) : State :=
  { s with
    mem := if inBounds s.pc .word then s.mem.writeN s.pc.toNat .word w else s.mem
    runState := .running
    fault := none
    pending := .tick :: s.pending }

end Sys2Proof.Machine
end

