-- ==== Sys2Proof/Machine/Step.lean ====
section
/-! DEFINITION. The step of the machine: the next host interaction, taken whole (R273), and the state that runs a given word
next. -/

namespace Sys2Proof.Machine

/-- One step: the next host interaction (a tick when none is pending) and, with it, at most one cycle. -/
def step (s : State) : Host.Outcome State Fault Refusal := s.advanceHost engine

/-- The state whose next step fetches and runs the instruction whose bits, numbered as the opcode table numbers them, are `w`. -/
def State.withFetchWord (s : State) (nbits w : Nat) : State := s.placeWord (BitVec.ofNat 32 (w % 2 ^ nbits))

end Sys2Proof.Machine
end

