-- ==== Sys2Proof/Machine/Codec.lean ====
section
/-! DEFINITION. The bit codec (R5 to R7), as the document has it: bit strings are lists of bits, the most significant first.
The decoder itself works on bit vectors; Laws and the statements tie the two together. -/

namespace Sys2Proof.Machine.Codec

/-- A bit string, most significant bit first (R6). -/
abbrev Bits := List Bool

/-- `intToBinary(value, width)` (R6): bit i from the right is bit i of the value. -/
def intToBinary (value : Nat) : Nat → Bits
  | 0 => []
  | width + 1 => value.testBit width :: intToBinary value width

/-- The unsigned value of a bit string (R6, R7). -/
def unsignedOf : Bits → Nat
  | [] => 0
  | b :: bits => b.toNat * 2 ^ bits.length + unsignedOf bits

/-- `binaryToInt(bits, signed)` (R7): when signed and the top bit is set, `(2^(len-1) - magnitude) * -1`, the magnitude being the
value of the other bits. -/
def binaryToInt (bits : Bits) (signed : Bool) : Int :=
  match bits with
  | [] => 0
  | b :: rest =>
    if signed && b then ((2 : Int) ^ rest.length - (unsignedOf rest : Int)) * (-1)
    else (unsignedOf (b :: rest) : Int)

/-- `extend(bits, width, signed)` (R7): pads on the left with the sign bit, or with zeros. -/
def extend (bits : Bits) (width : Nat) (signed : Bool) : Bits :=
  List.replicate (width - bits.length) (signed && bits.headD false) ++ bits

/-- `bitSlice(word, start, end)` (R5): the bits start..end of a word, the most significant selected bit first. -/
def bitSlice (w : Word) (first last : Nat) : Bits :=
  intToBinary (w.toNat >>> first) (last + 1 - first)

end Sys2Proof.Machine.Codec
end

