-- ==== Sys2Proof/Machine/Parametric.lean ====
section
/-! DEFINITION. The core with the parameters of R4 as an argument: its execution, its engine, its step and the machine. At
`defaultParams` they are `exec`, `engine`, `step` and `Sys2Proof.core`. -/

namespace Sys2Proof.Machine

/-- The effect of one instruction, for any value of the parameters: SUB, SBC and CMP read SUB_C_CONVENTION, the shifts and rotates
SHIFT_COUNT_BITS, the others none (92_eei_decisions.md, table of parameters). -/
def execWith (p : Config.Params) (i : Instr) (s : State) : Host.Outcome State Fault Refusal :=
  match i with
  | .move src dest => execMove src dest s
  | .or src1 src2 dest => execOr src1 src2 dest s
  | .and src1 src2 dest => execAnd src1 src2 dest s
  | .xor src1 src2 dest => execXor src1 src2 dest s
  | .add src1 src2 dest => execAdd src1 src2 dest s
  | .adc src1 src2 dest => execAdc src1 src2 dest s
  | .sub src1 src2 dest => execSubWith p src1 src2 dest s
  | .sbc src1 src2 dest => execSbcWith p src1 src2 dest s
  | .rotl src1 src2 dest => execRotlWith p src1 src2 dest s
  | .rotr src1 src2 dest => execRotrWith p src1 src2 dest s
  | .shl src1 src2 dest => execShlWith p src1 src2 dest s
  | .shr src1 src2 dest => execShrWith p src1 src2 dest s
  | .ashr src1 src2 dest => execAshrWith p src1 src2 dest s
  | .cmp src1 src2 => execCmpWith p src1 src2 s
  | .pop reg => execPop reg s
  | .push reg => execPush reg s
  | .loadb addr reg => execLoadb addr reg s
  | .storeb addr reg => execStoreb addr reg s
  | .loadh addr reg => execLoadh addr reg s
  | .storeh addr reg => execStoreh addr reg s
  | .load addr reg => execLoad addr reg s
  | .store addr reg => execStore addr reg s
  | .jp cond dest => execJp cond dest s
  | .call cond dest => execCall cond dest s
  | .jr cond off => execJr cond off s
  | .ret cond => execRet cond s
  | .reti cond => execReti cond s
  | .retn cond => execRetn cond s
  | .halt cond => execHalt cond s

/-- The engine for any value of the parameters: the decoder reads OPCODE_MAP and COND_MAP. -/
def engineWith (p : Config.Params) : Engine where
  decode := decodeWith p.maps
  exec := execWith p

/-- One step, for any value of the parameters. FREQ does not enter: a tick is untimed (R346; log entry 14). -/
def stepWith (p : Config.Params) (s : State) : Host.Outcome State Fault Refusal := s.advanceHost (engineWith p)

/-- The machine, for any value of the parameters. No parameter enters the state after reset (R34). -/
def coreWith (p : Config.Params) : Host.Core where
  State := State
  Fault := Fault
  Refusal := Refusal
  step := stepWith p
  reset := State.reset

end Sys2Proof.Machine
end

