-- ==== Sys2Proof/Safety.lean ====
section
/-! DEFINITION. The words the statements use: which instructions have which shape, what "unchanged" means, when a step runs a
cycle, how a run ends (R277), and the invariant of the machine. -/

namespace Sys2Proof

/-! ## Shapes of instructions -/

/-- The destination of the twelve ALU instructions that write one (R87). -/
def Instr.aluDest : Instr → Option Reg
  | .or _ _ d => some d
  | .and _ _ d => some d
  | .xor _ _ d => some d
  | .add _ _ d => some d
  | .adc _ _ d => some d
  | .sub _ _ d => some d
  | .sbc _ _ d => some d
  | .rotl _ _ d => some d
  | .rotr _ _ d => some d
  | .shl _ _ d => some d
  | .shr _ _ d => some d
  | .ashr _ _ d => some d
  | .move _ _ => none
  | .cmp _ _ => none
  | .pop _ => none
  | .push _ => none
  | .loadb _ _ => none
  | .storeb _ _ => none
  | .loadh _ _ => none
  | .storeh _ _ => none
  | .load _ _ => none
  | .store _ _ => none
  | .jp _ _ => none
  | .call _ _ => none
  | .jr _ _ => none
  | .ret _ => none
  | .reti _ => none
  | .retn _ => none
  | .halt _ => none

/-- The condition of the instructions that carry one (R95). -/
def Instr.condition : Instr → Option Cond
  | .jp t _ => some t
  | .call t _ => some t
  | .jr t _ => some t
  | .ret t => some t
  | .reti t => some t
  | .retn t => some t
  | .halt t => some t
  | .move _ _ => none
  | .or _ _ _ => none
  | .and _ _ _ => none
  | .xor _ _ _ => none
  | .add _ _ _ => none
  | .adc _ _ _ => none
  | .sub _ _ _ => none
  | .sbc _ _ _ => none
  | .rotl _ _ _ => none
  | .rotr _ _ _ => none
  | .shl _ _ _ => none
  | .shr _ _ _ => none
  | .ashr _ _ _ => none
  | .cmp _ _ => none
  | .pop _ => none
  | .push _ => none
  | .loadb _ _ => none
  | .storeb _ _ => none
  | .loadh _ _ => none
  | .storeh _ _ => none
  | .load _ _ => none
  | .store _ _ => none

namespace Machine

/-! ## What is unchanged -/

/-- Every general register but those listed is unchanged. -/
def SameRegsBut (ds : List Reg) (s t : State) : Prop := ∀ r, r ∉ ds → t.reg r = s.reg r

/-- Every bit of sr but those listed is unchanged. -/
def SameSrBut (ks : List Nat) (s t : State) : Prop := ∀ k, k ∉ ks → t.sr.getLsbD k = s.sr.getLsbD k

/-- Every byte of memory is unchanged. -/
def SameMem (s t : State) : Prop := ∀ x, t.readByte x = s.readByte x

/-- Every byte of memory outside the n bytes from a on is unchanged. -/
def SameMemBut (a n : Nat) (s t : State) : Prop := ∀ x, x < a ∨ a + n ≤ x → t.readByte x = s.readByte x

/-- iif, the run state, the fault record, what the host has still to send and the emitted events are unchanged. -/
def SameControl (s t : State) : Prop :=
  t.iif = s.iif ∧ t.runState = s.runState ∧ t.fault = s.fault ∧ t.pending = s.pending ∧ t.trace = s.trace

/-- The n bytes of memory from a on are the n low bytes of v, the lowest byte at the lowest address (R55, R56, R57). -/
def HoldsBytes (t : State) (a n : Nat) (v : Word) : Prop := ∀ k, k < n → t.readByte (a + k) = v.extractLsb' (8 * k) 8

/-- The pc that an instruction leaves unless it transfers control (R265): pc_i + 4, the low two bits 0 (R23). -/
def pcAfter (s : State) : Word := (s.pc + 4#32) &&& 0xFFFFFFFC#32

/-- The state a fault leaves (R304): only the record, the run state and the emitted events differ. -/
def faulted (s : State) (f : Fault) : State :=
  { s with fault := some f, runState := .stopped, trace := .onStop :: s.trace }

/-! ## Runs -/

/-- The next step runs a cycle: a tick taken while running, or a step command taken while stopped or paused with no fault
recorded (R268, R271). -/
def State.RunsCycle (s : State) : Prop :=
  (s.nextEvent = .tick ∧ s.runState = .running) ∨ (s.nextEvent = .step ∧ s.runState ≠ .running ∧ s.fault = none)

/-- The four bytes at pc, in the order they lie in memory (R261). -/
def State.bytesAtPc (s : State) : List Byte :=
  [s.readByte s.pc.toNat, s.readByte (s.pc.toNat + 1), s.readByte (s.pc.toNat + 2), s.readByte (s.pc.toNat + 3)]

/-- The next step runs a HALT whose condition holds (R237). -/
def State.TakesHalt (s : State) : Prop :=
  s.RunsCycle ∧ ∃ w t, s.fetch = .ok w ∧ decode w = .ok (.halt t) ∧ condHolds t s.sr = true

/-- The step from s to t ends a run normally (R277). -/
def EndsNormally (s t : State) : Prop :=
  s.TakesHalt ∧ step s = .next t ∧ t.runState = .stopped ∧ t.fault = none

/-- The step from s to t ends a run in error (R277). -/
def EndsInError (s t : State) : Prop := s.fault = none ∧ step s = .next t ∧ t.fault ≠ none

/-! ## The invariant -/

/-- What holds of the state at reset and after every step: pc word-aligned (R23), the bits of sr that nothing writes 0 (R27), iif
set (R28, R236), memory in its canonical form with every listed cell inside MEM_SIZE (R50), and no core that runs or is paused
with a fault recorded (R304, R308). -/
structure State.Inv (s : State) : Prop where
  pcAligned : s.pc &&& 3#32 = 0#32
  srHigh : s.sr &&& 0xFFFFFF00#32 = 0#32
  iifSet : s.iif = true
  memCanonical : s.mem.wf = true
  faultStops : s.fault ≠ none → s.runState = .stopped

end Machine

end Sys2Proof
end

