-- ==== Sys2Proof/Certificates/Slice0/Obligations.lean ====
section
/-! DEFINITION. The statements for the provers. Each docstring names the rule or the decision of the spec it rests on; where a
clause rests on one of the spec's own decisions or inferences, the docstring says which. -/

open Sys2Proof Sys2Proof.Machine

/-! ## Encoding (30_encoding.md) -/

/-- For every legal value of the parameters OPCODE_MAP and COND_MAP (R4; decisions D1 and D2), decoding the encoding of a
well-formed instruction gives it back, with every operand at every value the encoding admits. The encoder's ignored bits are
decision D19 (log entry 13). -/
def Obligations.DecodeOfEncodeUnderEveryCodeMap : Prop :=
  ∀ (m : Config.CodeMaps) (i : Instr), m.Lawful → i.wf = true → decodeWith m (encodeWith m i) = .ok i

/-- The default values of the two parameters are legal ones: mutually inverse maps, ADD = 00100, 01110 and 01111 unassigned
(decisions D1 and D2; log entries 5 and 6). -/
def Obligations.DefaultCodeMapsAreLegal : Prop := defaultMaps.Lawful

/-- A word is a given well-formed instruction exactly when it agrees with the instruction's encoding on the bits its format reads;
the other bits are ignored (R97's inference; decisions D1, D2, D19; log entries 5, 6, 13). -/
def Obligations.WordIsInstructionIffItsFieldsAgree : Prop :=
  ∀ (i : Instr) (w : Word), i.wf = true → (decode w = .ok i ↔ w &&& careMask i = encode i &&& careMask i)

/-- What the decoder answers is always well-formed: its immediate is a sign-extended 20-bit value (30_encoding.md section 1). -/
def Obligations.DecodedInstructionIsWellFormed : Prop :=
  ∀ (w : Word) (i : Instr), decode w = .ok i → i.wf = true

/-- Decoding fails exactly on the opcode classes 01110, 01111, 11100, 11101 and 11110 and, for JP, CALL, JR, RET and HALT, on the
condition code 1111 (decisions D1 and D2 give the codes; log entries 5 and 6). -/
def Obligations.DecodeFailsExactlyOnUndefinedCodes : Prop :=
  ∀ w : Word, (∃ e, decode w = .error e) ↔
    (w.extractLsb' 27 5 ∈ [0b01110#5, 0b01111#5, 0b11100#5, 0b11101#5, 0b11110#5] ∨
      (w.extractLsb' 27 5 ∈ [0b11000#5, 0b11001#5, 0b11010#5, 0b11011#5, 0b11111#5] ∧ w.extractLsb' 22 4 = 0b1111#4))

/-- Words written out from the encodings decode to the instructions they stand for (decisions D1 and D2; 95_test_vectors.md). -/
def Obligations.SampleWordsDecodeAsTheSpecSays : Prop :=
  decode 0x21940000 = .ok (.add .r1 (.reg .r2) .r3) ∧
  decode 0x04A00005 = .ok (.move .sr (.reg .r1)) ∧
  decode 0x6C100005 = .ok (.cmp .r1 (.imm 5)) ∧
  decode 0x4D1FFFFF = .ok (.rotr .r1 (.imm 0xFFFFFFFF) .r2) ∧
  decode 0xB4AFFFFC = .ok (.load (.base .r2 0xFFFFFFFC) .r1) ∧
  decode 0x8BFFFFFF = .ok (.push .r7) ∧
  decode 0xC5C00100 = .ok (.jp .zSet (.imm 0x100)) ∧
  decode 0xD00FFFF8 = .ok (.jr .always 0xFFFFFFF8) ∧
  decode 0xD8000003 = .ok (.retn .always) ∧
  decode 0xFC3FFFFF = .ok (.halt .always) ∧
  decode 0x70000000 = .error (.undefinedOperationCode 0b01110) ∧
  decode 0xC7C00100 = .error (.malformedArguments 0b1111)

/-! ## The bit codec (00_scope.md) -/

/-- R6: `intToBinary` gives `width` bits, bit i from the right being bit i of the value, and read back they are the value modulo
2^width. -/
def Obligations.IntToBinaryGivesTheBitsOfTheValue : Prop :=
  ∀ value width : Nat,
    (Codec.intToBinary value width).length = width ∧
    (∀ i, i < width → (Codec.intToBinary value width)[width - 1 - i]? = some (value.testBit i)) ∧
    Codec.binaryToInt (Codec.intToBinary value width) false = ((value % 2 ^ width : Nat) : Int)

/-- R7: the signed reading of a bit string is two's complement, and `extend` copies the sign bit when signed and zeros when not.
(The empty bit string, which has no top bit, is left out by R7's own form.) -/
def Obligations.CodecReadsAndExtendsTwosComplement : Prop :=
  ∀ value len width : Nat, 0 < len → len ≤ width →
    Codec.binaryToInt (Codec.intToBinary value len) true = (BitVec.ofNat len value).toInt ∧
    Codec.binaryToInt (Codec.intToBinary value len) false = (BitVec.ofNat len value).toNat ∧
    Codec.extend (Codec.intToBinary value len) width true =
      Codec.intToBinary ((BitVec.ofNat len value).signExtend width).toNat width ∧
    Codec.extend (Codec.intToBinary value len) width false =
      Codec.intToBinary ((BitVec.ofNat len value).setWidth width).toNat width

/-- R5: `bitSlice` extracts the inclusive bit range of a 32-bit word, bit 0 the least significant, the most significant selected
bit first; read as a number it is the field. -/
def Obligations.BitSliceIsTheField : Prop :=
  ∀ (w : Word) (first last : Nat), first ≤ last → last ≤ 31 →
    (Codec.bitSlice w first last).length = last + 1 - first ∧
    (∀ i, first ≤ i → i ≤ last → (Codec.bitSlice w first last)[last - i]? = some (w.getLsbD i)) ∧
    Codec.binaryToInt (Codec.bitSlice w first last) false = ((w.extractLsb' first (last + 1 - first)).toNat : Int)

/-! ## Flags and conditions -/

/-- R26: setting a flag gives that flag the value and leaves every other bit of sr as it was. -/
def Obligations.SetFlagWritesThatBitOnly : Prop :=
  ∀ (sr : Word) (f : Flag) (b : Bool),
    getFlag (setFlag sr f b) f = b ∧ ∀ k, k ≠ f.bit → (setFlag sr f b).getLsbD k = sr.getLsbD k

/-- The truth table of 95_test_vectors.md section 2.5: bit 15 - (8N + 4C + 2V + Z) of a tag's row says whether it holds
(40_condition.md). The row of each tag, written out from that table. -/
def Obligations.ConditionsFollowTheTruthTable : Prop :=
  ∀ (sr : Word) (t : Cond),
    let col := 8 * (sr.getLsbD 0).toNat + 4 * (sr.getLsbD 1).toNat + 2 * (sr.getLsbD 2).toNat + (sr.getLsbD 3).toNat
    let row : Nat := match t with
      | .always => 0b1111111111111111
      | .nSet => 0b0000000011111111
      | .nClear => 0b1111111100000000
      | .cSet => 0b0000111100001111
      | .cClear => 0b1111000011110000
      | .vSet => 0b0011001100110011
      | .vClear => 0b1100110011001100
      | .zSet => 0b0101010101010101
      | .zClear => 0b1010101010101010
      | .cOrZ => 0b0101111101011111
      | .notCAndNotZ => 0b1010000010100000
      | .nXorV => 0b0011001111001100
      | .nXorVOrZ => 0b0111011111011101
      | .nEqV => 0b1100110000110011
      | .nEqVAndNotZ => 0b1000100000100010
    condHolds t sr = row.testBit (15 - col)

/-- R125's reading of the tags after CMP a, b: unsigned and signed comparisons (an inference of the spec, under decision D4's
borrow convention; log entry 8). CMP itself completes and changes no register. -/
def Obligations.ConditionsAfterCompareAreComparisons : Prop :=
  ∀ (s : State) (src1 : Reg) (src2 : RegImm),
    ∃ t, exec (.cmp src1 src2) s = .next t ∧
      (let a := s.reg src1
       let b := s.regImm src2
       (condHolds .cSet t.sr = true ↔ a.toNat < b.toNat) ∧
       (condHolds .cClear t.sr = true ↔ b.toNat ≤ a.toNat) ∧
       (condHolds .cOrZ t.sr = true ↔ a.toNat ≤ b.toNat) ∧
       (condHolds .notCAndNotZ t.sr = true ↔ b.toNat < a.toNat) ∧
       (condHolds .nXorV t.sr = true ↔ a.toInt < b.toInt) ∧
       (condHolds .nXorVOrZ t.sr = true ↔ a.toInt ≤ b.toInt) ∧
       (condHolds .nEqV t.sr = true ↔ b.toInt ≤ a.toInt) ∧
       (condHolds .nEqVAndNotZ t.sr = true ↔ b.toInt < a.toInt) ∧
       (condHolds .zSet t.sr = true ↔ a = b) ∧
       (condHolds .zClear t.sr = true ↔ a ≠ b))

/-! ## Arithmetic and logic (42_arith_logic.md) -/

/-- R162's reading of the adder, for ADD and ADC: C is unsigned carry, V is signed overflow, the result wraps (R150's inference). -/
def Obligations.AdderReportsCarryAndSignedOverflow : Prop :=
  ∀ (a b : Word) (cin : Bool),
    (addC a b cin).res.toNat = (a.toNat + b.toNat + cin.toNat) % 2 ^ 32 ∧
    ((addC a b cin).c = true ↔ 2 ^ 32 ≤ a.toNat + b.toNat + cin.toNat) ∧
    ((addC a b cin).v = true ↔
      (a.toInt + b.toInt + (cin.toNat : Int) < -2 ^ 31 ∨ 2 ^ 31 ≤ a.toInt + b.toInt + (cin.toNat : Int)))

/-- R151's reading of the subtractor under both values of SUB_C_CONVENTION: the value wraps, V is signed overflow, and C is the
borrow or its complement (an inference of the spec; decision D4; log entry 8). -/
def Obligations.SubtractorReportsBorrowAndSignedOverflow : Prop :=
  ∀ (conv : Config.SubCConvention) (a b : Word) (bin : Bool),
    (subB conv a b bin).res = a - b - BitVec.ofNat 32 bin.toNat ∧
    (((subB conv a b bin).c = decide (conv = .borrow)) ↔ a.toNat < b.toNat + bin.toNat) ∧
    ((subB conv a b bin).v = true ↔
      (a.toInt - b.toInt - (bin.toNat : Int) < -2 ^ 31 ∨ 2 ^ 31 ≤ a.toInt - b.toInt - (bin.toNat : Int)))

/-- SUB then SBC subtracts a two-word value, under both values of SUB_C_CONVENTION (R158's inference; decision D4; log entry 8). -/
def Obligations.SubThenSbcSubtractsTwoWords : Prop :=
  ∀ (conv : Config.SubCConvention) (aHi aLo bHi bLo : Word),
    let lo := subB conv aLo bLo false
    let hi := subB conv aHi bHi (sbcBorrowIn conv lo.c)
    (hi.res ++ lo.res : BitVec 64) = (aHi ++ aLo) - (bHi ++ bLo)

/-- R154: ADD writes the sum and sets N and Z from it, C to the carry out of bit 31 and V to the carry into bit 31 against it
(R150), and the pc advances. -/
def Obligations.AddWritesSumAndFlags : Prop :=
  ∀ (s : State) (src1 : Reg) (src2 : RegImm) (dest : Reg),
    ∃ t, exec (.add src1 src2 dest) s = .next t ∧
      (let a := s.reg src1
       let b := s.regImm src2
       t.reg dest = a + b ∧
       t.flag .n = (a + b).getLsbD 31 ∧ t.flag .z = decide (a + b = 0#32) ∧
       t.flag .c = BitVec.carry 32 a b false ∧
       t.flag .v = (BitVec.carry 31 a b false != BitVec.carry 32 a b false) ∧
       t.pc = pcAfter s)

/-- R155: ADC adds the C flag as it stands before the instruction; the carry-in counts toward C and V. -/
def Obligations.AdcWritesSumWithCarryAndFlags : Prop :=
  ∀ (s : State) (src1 : Reg) (src2 : RegImm) (dest : Reg),
    ∃ t, exec (.adc src1 src2 dest) s = .next t ∧
      (let a := s.reg src1
       let b := s.regImm src2
       let cin := s.flag .c
       let res := a + b + (if cin then 1#32 else 0#32)
       t.reg dest = res ∧
       t.flag .n = res.getLsbD 31 ∧ t.flag .z = decide (res = 0#32) ∧
       t.flag .c = BitVec.carry 32 a b cin ∧
       t.flag .v = (BitVec.carry 31 a b cin != BitVec.carry 32 a b cin) ∧
       t.pc = pcAfter s)

/-- SUB (42_arith_logic.md section 2): the difference, N and Z from it, C the borrow (decision D4; log entry 8), V signed
overflow (R151's inference). -/
def Obligations.SubWritesDifferenceAndFlags : Prop :=
  ∀ (s : State) (src1 : Reg) (src2 : RegImm) (dest : Reg),
    ∃ t, exec (.sub src1 src2 dest) s = .next t ∧
      (let a := s.reg src1
       let b := s.regImm src2
       t.reg dest = a - b ∧
       t.flag .n = (a - b).getLsbD 31 ∧ t.flag .z = decide (a = b) ∧
       t.flag .c = decide (a.toNat < b.toNat) ∧
       t.flag .v = decide (a.toInt - b.toInt < -2 ^ 31 ∨ 2 ^ 31 ≤ a.toInt - b.toInt) ∧
       t.pc = pcAfter s)

/-- SBC (42_arith_logic.md section 2): the C flag is the borrow-in (decision D4; log entry 8). -/
def Obligations.SbcWritesDifferenceWithBorrowAndFlags : Prop :=
  ∀ (s : State) (src1 : Reg) (src2 : RegImm) (dest : Reg),
    ∃ t, exec (.sbc src1 src2 dest) s = .next t ∧
      (let a := s.reg src1
       let b := s.regImm src2
       let bin : Nat := if s.flag .c then 1 else 0
       let res := a - b - BitVec.ofNat 32 bin
       t.reg dest = res ∧
       t.flag .n = res.getLsbD 31 ∧ t.flag .z = decide (res = 0#32) ∧
       t.flag .c = decide (a.toNat < b.toNat + bin) ∧
       t.flag .v = decide (a.toInt - b.toInt - (bin : Int) < -2 ^ 31 ∨ 2 ^ 31 ≤ a.toInt - b.toInt - (bin : Int)) ∧
       t.pc = pcAfter s)

/-- CMP (42_arith_logic.md section 2): SUB's flags (decision D4; log entry 8), and no register, no byte of memory and no other bit
of sr changes. -/
def Obligations.CmpSetsFlagsOnly : Prop :=
  ∀ (s : State) (src1 : Reg) (src2 : RegImm),
    ∃ t, exec (.cmp src1 src2) s = .next t ∧
      (let a := s.reg src1
       let b := s.regImm src2
       t.flag .n = (a - b).getLsbD 31 ∧ t.flag .z = decide (a = b) ∧
       t.flag .c = decide (a.toNat < b.toNat) ∧
       t.flag .v = decide (a.toInt - b.toInt < -2 ^ 31 ∨ 2 ^ 31 ≤ a.toInt - b.toInt) ∧
       t.pc = pcAfter s ∧
       SameRegsBut [] s t ∧ SameSrBut [0, 1, 2, 3] s t ∧ SameMem s t ∧ SameControl s t)

/-- R159, R160, R161: AND, OR and XOR write the bitwise result, bit by bit; N and Z from it, C = V = 0. -/
def Obligations.LogicalInstructionsWriteBitwiseResults : Prop :=
  ∀ (s : State) (src1 : Reg) (src2 : RegImm) (dest : Reg) (i : Instr) (op : Bool → Bool → Bool),
    (i = .and src1 src2 dest ∧ op = Bool.and ∨ i = .or src1 src2 dest ∧ op = Bool.or ∨
      i = .xor src1 src2 dest ∧ op = Bool.xor) →
    ∃ t, exec i s = .next t ∧
      (∀ k, k < 32 → (t.reg dest).getLsbD k = op ((s.reg src1).getLsbD k) ((s.regImm src2).getLsbD k)) ∧
      t.flag .n = (t.reg dest).getLsbD 31 ∧ t.flag .z = decide (t.reg dest = 0#32) ∧
      t.flag .c = false ∧ t.flag .v = false ∧ t.pc = pcAfter s

/-! ## Shifts and rotates (43_shift_rotate.md). The count is the low five bits of the second operand (decision D5; log entry 9);
C for a count of 0 and for right shifts is decision D6 (log entry 10). -/

/-- SHL, bit by bit: zeros enter at bit 0, C is the last bit shifted past bit 31 (decisions D5 and D6). -/
def Obligations.ShlShiftsLeft : Prop :=
  ∀ (s : State) (src1 : Reg) (src2 : RegImm) (dest : Reg),
    ∃ t, exec (.shl src1 src2 dest) s = .next t ∧
      (let a := s.reg src1
       let k := (s.regImm src2).toNat % 32
       (∀ j, j < 32 → (t.reg dest).getLsbD j = (decide (k ≤ j) && a.getLsbD (j - k))) ∧
       t.flag .n = (t.reg dest).getLsbD 31 ∧ t.flag .z = decide (t.reg dest = 0#32) ∧
       t.flag .c = (decide (k ≠ 0) && a.getLsbD (32 - k)) ∧ t.flag .v = false ∧ t.pc = pcAfter s)

/-- SHR: the unsigned quotient by 2^k, C the last bit shifted past bit 0 (decisions D5 and D6). -/
def Obligations.ShrShiftsRightWithZeros : Prop :=
  ∀ (s : State) (src1 : Reg) (src2 : RegImm) (dest : Reg),
    ∃ t, exec (.shr src1 src2 dest) s = .next t ∧
      (let a := s.reg src1
       let k := (s.regImm src2).toNat % 32
       (t.reg dest).toNat = a.toNat / 2 ^ k ∧
       t.flag .n = (t.reg dest).getLsbD 31 ∧ t.flag .z = decide (t.reg dest = 0#32) ∧
       t.flag .c = (decide (k ≠ 0) && a.getLsbD (k - 1)) ∧ t.flag .v = false ∧ t.pc = pcAfter s)

/-- ASHR: the floor of the signed quotient by 2^k; N is the sign of the operand for every count (decisions D5 and D6). -/
def Obligations.AshrShiftsRightWithSign : Prop :=
  ∀ (s : State) (src1 : Reg) (src2 : RegImm) (dest : Reg),
    ∃ t, exec (.ashr src1 src2 dest) s = .next t ∧
      (let a := s.reg src1
       let k := (s.regImm src2).toNat % 32
       (t.reg dest).toInt = a.toInt / 2 ^ k ∧
       t.flag .n = a.getLsbD 31 ∧ t.flag .z = decide (t.reg dest = 0#32) ∧
       t.flag .c = (decide (k ≠ 0) && a.getLsbD (k - 1)) ∧ t.flag .v = false ∧ t.pc = pcAfter s)

/-- ROTL, bit by bit: bits leaving bit 31 re-enter at bit 0; C is the new bit 0 unless the count is 0 (decisions D5 and D6). -/
def Obligations.RotlRotatesLeft : Prop :=
  ∀ (s : State) (src1 : Reg) (src2 : RegImm) (dest : Reg),
    ∃ t, exec (.rotl src1 src2 dest) s = .next t ∧
      (let a := s.reg src1
       let k := (s.regImm src2).toNat % 32
       (∀ j, j < 32 → (t.reg dest).getLsbD j = a.getLsbD ((j + 32 - k) % 32)) ∧
       t.flag .n = (t.reg dest).getLsbD 31 ∧ t.flag .z = decide (a = 0#32) ∧
       t.flag .c = (decide (k ≠ 0) && (t.reg dest).getLsbD 0) ∧ t.flag .v = false ∧ t.pc = pcAfter s)

/-- ROTR, bit by bit: bits leaving bit 0 re-enter at bit 31; C is the new bit 31 unless the count is 0 (decisions D5 and D6). -/
def Obligations.RotrRotatesRight : Prop :=
  ∀ (s : State) (src1 : Reg) (src2 : RegImm) (dest : Reg),
    ∃ t, exec (.rotr src1 src2 dest) s = .next t ∧
      (let a := s.reg src1
       let k := (s.regImm src2).toNat % 32
       (∀ j, j < 32 → (t.reg dest).getLsbD j = a.getLsbD ((j + k) % 32)) ∧
       t.flag .n = (t.reg dest).getLsbD 31 ∧ t.flag .z = decide (a = 0#32) ∧
       t.flag .c = (decide (k ≠ 0) && (t.reg dest).getLsbD 31) ∧ t.flag .v = false ∧ t.pc = pcAfter s)

/-- The frame of the twelve ALU instructions with a destination (OR, AND, XOR, ADD, ADC, SUB, SBC, ROTL, ROTR, SHL, SHR, ASHR):
only the destination register, N, C, V, Z and the pc may change (42_arith_logic.md section 1; 43_shift_rotate.md). -/
def Obligations.AluInstructionsChangeOnlyDestAndFlags : Prop :=
  ∀ (i : Instr) (dest : Reg) (s t : State), i.aluDest = some dest → exec i s = .next t →
    SameRegsBut [dest] s t ∧ SameSrBut [0, 1, 2, 3] s t ∧ SameMem s t ∧ SameControl s t

/-! ## MOVE (41_move.md) -/

/-- R140: MOVE to a register copies the whole source (of sr, its low 8 bits); MOVE to sr writes bits 7..0 from the source and
preserves the others; no register but the destination, no flag of a MOVE to a register, and nothing else changes. -/
def Obligations.MoveCopiesItsSource : Prop :=
  ∀ (s : State) (src : MoveSrc),
    (let v : Word := match src with
      | .sr => BitVec.setWidth 32 (BitVec.extractLsb' 0 8 s.sr)
      | .imm x => x
      | .reg r => s.reg r
     (∀ rd, ∃ t, exec (.move src (.reg rd)) s = .next t ∧ t.reg rd = v ∧ t.pc = pcAfter s ∧
        SameRegsBut [rd] s t ∧ SameSrBut [] s t ∧ SameMem s t ∧ SameControl s t) ∧
     (∃ t, exec (.move src .sr) s = .next t ∧ (∀ k, k < 8 → t.sr.getLsbD k = v.getLsbD k) ∧ t.pc = pcAfter s ∧
        SameRegsBut [] s t ∧ SameSrBut [0, 1, 2, 3, 4, 5, 6, 7] s t ∧ SameMem s t ∧ SameControl s t))

/-! ## Memory (20_memory.md) -/

/-- R55, R56, R57: a write of one, two or four bytes that lie in memory puts the low bytes of the value there, the lowest byte at the
lowest address, and changes no other byte and nothing else. -/
def Obligations.MemWriteStoresLittleEndian : Prop :=
  ∀ (s : State) (a : Word) (w : Width) (v : Word), a.toNat + w.bytes ≤ 262144 →
    ∃ t, s.memWrite a w v = .ok t ∧ HoldsBytes t a.toNat w.bytes v ∧ SameMemBut a.toNat w.bytes s t ∧
      SameRegsBut [] s t ∧ SameSrBut [] s t ∧ SameControl s t ∧ t.pc = s.pc

/-- A read answers exactly when all its bytes lie in memory, and then gives them, the byte at the lowest address lowest, with zeros
above (the order of the halfwords of a word and the zero extension are the spec's inferences, in 20_memory.md section 2 and
44_load_store.md section 2). -/
def Obligations.MemReadIsLittleEndianWithinBounds : Prop :=
  ∀ (s : State) (access : Access) (a : Word) (w : Width),
    (a.toNat + w.bytes ≤ 262144 → ∃ v, s.memRead access a w = .ok v ∧
      ∀ k, k < 4 → v.extractLsb' (8 * k) 8 = if k < w.bytes then s.readByte (a.toNat + k) else 0#8) ∧
    (262144 < a.toNat + w.bytes → s.memRead access a w = .error (.addressOutOfBounds s.pc a access w))

/-- Forced alignment: the aligned address is the multiple of the access size at or just below the address, so that an aligned access
lies wholly inside or wholly outside memory (20_memory.md sections 2 and 3, with the inference R58 draws). -/
def Obligations.AlignmentIsForcedDown : Prop :=
  ∀ (w : Width) (a : Word),
    (align w a).toNat = a.toNat - a.toNat % w.bytes ∧
    ((align w a).toNat + w.bytes ≤ 262144 ↔ (align w a).toNat < 262144)

/-! ## Loads, stores and the stack (44_load_store.md). Effective addresses wrap modulo 2^32 before the bounds check (decision D8;
log entry 11). -/

/-- LOAD, LOADH and LOADB, for an address inside memory: the register gets the bytes from the aligned address on, zero-extended,
and nothing but it and the pc changes (decision D8; zero extension is the spec's inference in section 2). -/
def Obligations.LoadsReadZeroExtended : Prop :=
  ∀ (s : State) (addr : Addr) (rd : Reg) (i : Instr) (w : Width),
    (i = .load addr rd ∧ w = .word ∨ i = .loadh addr rd ∧ w = .half ∨ i = .loadb addr rd ∧ w = .byte) →
    (align w (s.ea addr)).toNat < 262144 →
    ∃ t, exec i s = .next t ∧
      (∀ k, k < 4 → (t.reg rd).extractLsb' (8 * k) 8 =
        if k < w.bytes then s.readByte ((align w (s.ea addr)).toNat + k) else 0#8) ∧
      t.pc = pcAfter s ∧ SameRegsBut [rd] s t ∧ SameSrBut [] s t ∧ SameMem s t ∧ SameControl s t

/-- STORE, STOREH and STOREB, for an address inside memory: the bytes from the aligned address on become the low bytes of the
register, and no other byte, no register and nothing else but the pc changes (decision D8). -/
def Obligations.StoresWriteTruncated : Prop :=
  ∀ (s : State) (addr : Addr) (rd : Reg) (i : Instr) (w : Width),
    (i = .store addr rd ∧ w = .word ∨ i = .storeh addr rd ∧ w = .half ∨ i = .storeb addr rd ∧ w = .byte) →
    (align w (s.ea addr)).toNat < 262144 →
    ∃ t, exec i s = .next t ∧
      HoldsBytes t (align w (s.ea addr)).toNat w.bytes (s.reg rd) ∧
      SameMemBut (align w (s.ea addr)).toNat w.bytes s t ∧
      t.pc = pcAfter s ∧ SameRegsBut [] s t ∧ SameSrBut [] s t ∧ SameControl s t

/-- PUSH, for a stack slot inside memory: r7 is decremented by 4, then the register is stored at it, aligned down; PUSH R7 stores
the decremented r7 (decision D7; log entry 7). -/
def Obligations.PushDecrementsThenStores : Prop :=
  ∀ (s : State) (rd : Reg),
    ((s.reg .r7 - 4#32) &&& 0xFFFFFFFC#32).toNat < 262144 →
    ∃ t, exec (.push rd) s = .next t ∧
      (let sp := s.reg .r7 - 4#32
       t.reg .r7 = sp ∧
       HoldsBytes t (sp &&& 0xFFFFFFFC#32).toNat 4 (if rd = .r7 then sp else s.reg rd) ∧
       SameMemBut (sp &&& 0xFFFFFFFC#32).toNat 4 s t ∧
       t.pc = pcAfter s ∧ SameRegsBut [.r7] s t ∧ SameSrBut [] s t ∧ SameControl s t)

/-- POP, for a stack slot inside memory: the word at r7, aligned down, goes to the register, then r7 is incremented by 4; POP R7
adds 4 to the loaded word (decision D7; log entry 7). -/
def Obligations.PopLoadsThenIncrements : Prop :=
  ∀ (s : State) (rd : Reg),
    (s.reg .r7 &&& 0xFFFFFFFC#32).toNat < 262144 →
    ∃ (t : State) (v : Word), exec (.pop rd) s = .next t ∧
      HoldsBytes s (s.reg .r7 &&& 0xFFFFFFFC#32).toNat 4 v ∧
      (if rd = .r7 then t.reg .r7 = v + 4#32 else t.reg rd = v ∧ t.reg .r7 = s.reg .r7 + 4#32) ∧
      t.pc = pcAfter s ∧ SameRegsBut [rd, .r7] s t ∧ SameSrBut [] s t ∧ SameMem s t ∧ SameControl s t

/-- PUSH then POP of the same register, r7 included, gives every register its value before, r7 too (95_test_vectors.md S6;
decision D7). -/
def Obligations.PushThenPopRestoresRegisters : Prop :=
  ∀ (s : State) (r : Reg),
    ((s.reg .r7 - 4#32) &&& 0xFFFFFFFC#32).toNat < 262144 →
    ∃ t u, exec (.push r) s = .next t ∧ exec (.pop r) t = .next u ∧ SameRegsBut [] s u ∧ SameSrBut [] s u

/-- An access outside memory: LOAD*, STORE*, PUSH, POP, a taken CALL and a taken RET, RETI or RETN whose aligned address is at or
above MEM_SIZE take the fault AddressOutOfBounds with that address, and nothing else changes: r7 is as before (60_exceptions.md
section 1; decisions D8, D9, D15, D21; log entry 3). -/
def Obligations.AccessOutsideMemoryTakesTheFault : Prop :=
  ∀ (s : State) (i : Instr) (a : Word) (access : Access) (w : Width),
    ((∃ addr rd, (i = .load addr rd ∧ access = .read ∧ w = .word ∨ i = .loadh addr rd ∧ access = .read ∧ w = .half ∨
        i = .loadb addr rd ∧ access = .read ∧ w = .byte ∨ i = .store addr rd ∧ access = .write ∧ w = .word ∨
        i = .storeh addr rd ∧ access = .write ∧ w = .half ∨ i = .storeb addr rd ∧ access = .write ∧ w = .byte) ∧
        a = align w (s.ea addr)) ∨
      (((∃ rd, i = .push rd) ∨ ∃ c dest, i = .call c dest ∧ condHolds c s.sr = true) ∧
        access = .write ∧ w = .word ∧ a = (s.reg .r7 - 4#32) &&& 0xFFFFFFFC#32) ∨
      (((∃ rd, i = .pop rd) ∨ ∃ c, (i = .ret c ∨ i = .reti c ∨ i = .retn c) ∧ condHolds c s.sr = true) ∧
        access = .read ∧ w = .word ∧ a = s.reg .r7 &&& 0xFFFFFFFC#32)) →
    262144 ≤ a.toNat →
    exec i s = .next (faulted s (.addressOutOfBounds s.pc a access w))

/-! ## Control transfer and HALT (45_control.md). The pc after a transfer is decision D3 (log entry 7). -/

/-- A conditional instruction whose condition does not hold changes nothing but the pc, which advances (R230's inference). -/
def Obligations.UntakenConditionalsOnlyAdvance : Prop :=
  ∀ (i : Instr) (c : Cond) (s : State), i.condition = some c → condHolds c s.sr = false →
    exec i s = .next { s with pc := pcAfter s }

/-- A taken JP lands on its target, a taken JR on pc + offset, each aligned down to a word, and nothing else changes (decision
D3). -/
def Obligations.TakenJumpsLandOnTheirTargets : Prop :=
  ∀ (s : State) (c : Cond) (dest : RegImm) (off : Word) (i : Instr) (target : Word), condHolds c s.sr = true →
    (i = .jp c dest ∧ target = s.regImm dest ∨ i = .jr c off ∧ target = s.pc + off) →
    ∃ t, exec i s = .next t ∧ t.pc.toNat = target.toNat - target.toNat % 4 ∧
      SameRegsBut [] s t ∧ SameSrBut [] s t ∧ SameMem s t ∧ SameControl s t

/-- A taken CALL, for a stack slot inside memory: its own address is pushed as by PUSH, and the pc is the target, aligned down, the
target register being read after the push (decisions D3 and D7; log entry 7). -/
def Obligations.TakenCallPushesItsOwnAddress : Prop :=
  ∀ (s : State) (c : Cond) (dest : RegImm), condHolds c s.sr = true →
    ((s.reg .r7 - 4#32) &&& 0xFFFFFFFC#32).toNat < 262144 →
    ∃ t, exec (.call c dest) s = .next t ∧
      (let sp := s.reg .r7 - 4#32
       t.reg .r7 = sp ∧
       HoldsBytes t (sp &&& 0xFFFFFFFC#32).toNat 4 s.pc ∧
       SameMemBut (sp &&& 0xFFFFFFFC#32).toNat 4 s t ∧
       t.pc = (if dest = .reg .r7 then sp else s.regImm dest) &&& 0xFFFFFFFC#32 ∧
       SameRegsBut [.r7] s t ∧ SameSrBut [] s t ∧ SameControl s t)

/-- A taken RET, RETI or RETN, for a stack slot inside memory: the word at r7 is popped and the pc is that word, aligned down, plus
4; RETI sets GIE and RETN sets iif, and nothing else changes (decision D3; log entry 7). -/
def Obligations.TakenReturnsPopTheirAddress : Prop :=
  ∀ (s : State) (c : Cond) (i : Instr), condHolds c s.sr = true →
    (i = .ret c ∨ i = .reti c ∨ i = .retn c) →
    (s.reg .r7 &&& 0xFFFFFFFC#32).toNat < 262144 →
    ∃ (t : State) (ra : Word), exec i s = .next t ∧
      HoldsBytes s (s.reg .r7 &&& 0xFFFFFFFC#32).toNat 4 ra ∧
      t.pc = (ra &&& 0xFFFFFFFC#32) + 4#32 ∧ t.reg .r7 = s.reg .r7 + 4#32 ∧ SameRegsBut [.r7] s t ∧
      t.flag .gie = (decide (i = .reti c) || s.flag .gie) ∧ SameSrBut [7] s t ∧
      t.iif = (decide (i = .retn c) || s.iif) ∧ SameMem s t ∧
      t.runState = s.runState ∧ t.fault = s.fault ∧ t.pending = s.pending ∧ t.trace = s.trace

/-- A CALL and the RET that finds the stack as the CALL left it: the RET goes to the instruction after the CALL and r7 is what it was
(decision D3, 90_conflicts.md C6). -/
def Obligations.ReturnResumesAfterTheCall : Prop :=
  ∀ (s u : State) (c : Cond) (dest : RegImm), condHolds c s.sr = true → s.pc &&& 3#32 = 0#32 →
    ((s.reg .r7 - 4#32) &&& 0xFFFFFFFC#32).toNat < 262144 →
    ∃ t, exec (.call c dest) s = .next t ∧
      (u.reg .r7 = t.reg .r7 → SameMem t u →
        ∃ v, exec (.ret .always) u = .next v ∧ v.pc = s.pc + 4#32 ∧ v.reg .r7 = s.reg .r7)

/-- A taken HALT stops the core, emits on_stop and advances the pc, under the unconditional tag whatever the flags; nothing else
changes (decision D3 for the pc, D11 for the event; log entries 2 and 7). -/
def Obligations.TakenHaltStopsTheCore : Prop :=
  ∀ (s : State) (c : Cond), (c = .always ∨ condHolds c s.sr = true) →
    ∃ t, exec (.halt c) s = .next t ∧ t.runState = .stopped ∧ t.trace = .onStop :: s.trace ∧ t.pc = pcAfter s ∧
      SameRegsBut [] s t ∧ SameSrBut [] s t ∧ SameMem s t ∧ t.iif = s.iif ∧ t.fault = s.fault ∧ t.pending = s.pending

/-! ## Rules of the whole machine -/

/-- Who writes sr and iif (10_state.md sections 3 and 4, an inference of the spec): a bit of sr changes only by an ALU instruction or
CMP (bits 3..0), by MOVE to sr (bits 7..0) or by RETI (bit 7, to 1); iif changes only by RETN, to 1. So INT0, INT1 and INT2 and
the bits above never change. -/
def Obligations.OnlyTheirWritersChangeSrAndIif : Prop :=
  ∀ (i : Instr) (s t : State), exec i s = .next t →
    (∀ k, t.sr.getLsbD k ≠ s.sr.getLsbD k →
      (k < 4 ∧ (i.aluDest ≠ none ∨ ∃ a b, i = .cmp a b)) ∨ (k < 8 ∧ ∃ src, i = .move src .sr) ∨
      (k = 7 ∧ t.sr.getLsbD 7 = true ∧ ∃ c, i = .reti c)) ∧
    (t.iif ≠ s.iif → t.iif = true ∧ ∃ c, i = .retn c)

/-- Faults are precise and atomic: if an instruction takes a fault, it is AddressOutOfBounds at its own pc for a data access outside
memory, and the state is the one before it but for the record, the run state and on_stop (decisions D9, D15, D21; log entry 3). -/
def Obligations.InstructionFaultsArePrecise : Prop :=
  ∀ (i : Instr) (s t : State) (f : Fault), s.fault = none → exec i s = .next t → t.fault = some f →
    t = faulted s f ∧
    ∃ a access w, f = .addressOutOfBounds s.pc a access w ∧ access ≠ .fetch ∧ 262144 ≤ a.toNat

/-- No step stops: every step answers a next state (93_implementation_defined.md part 1: every instruction word and every host
interaction has exactly one outcome). -/
def Obligations.EveryStepAnswersANextState : Prop := ∀ s : State, ∃ t, step s = .next t

/-- Every step keeps the invariant: pc word-aligned, the unwritten bits of sr 0, iif set, memory in its canonical form inside
MEM_SIZE, no core that runs or is paused with a fault recorded. -/
def Obligations.EveryStepKeepsTheInvariant : Prop := ∀ s t : State, s.Inv → step s = .next t → t.Inv

/-- The state after reset meets the invariant. -/
def Obligations.ResetMeetsTheInvariant : Prop := State.reset.Inv

/-- The run state changes only as the table of 46_cycle.md section 3 says: by run, pause, stop or reset, by a cycle that takes a
HALT, or by a cycle that takes a fault (decisions D11 and D15; log entries 1 and 3). -/
def Obligations.RunStateChangesOnlyAsTheTableSays : Prop :=
  ∀ s t : State, s.Inv → step s = .next t → t.runState ≠ s.runState →
    (s.nextEvent = .run ∧ s.fault = none ∧ t.runState = .running) ∨
    (s.nextEvent = .pause ∧ s.runState = .running ∧ t.runState = .paused) ∨
    ((s.nextEvent = .stop ∨ s.nextEvent = .reset) ∧ t.runState = .stopped) ∨
    EndsNormally s t ∨
    (s.RunsCycle ∧ EndsInError s t ∧ t.runState = .stopped)

/-- A recorded fault stays until a reset, and until then no register, sr, iif or pc changes and the core stays stopped (decision
D15; log entry 3). -/
def Obligations.FaultIsHeldUntilReset : Prop :=
  ∀ (s t : State) (f : Fault), s.Inv → s.fault = some f → s.nextEvent ≠ .reset → step s = .next t →
    t.fault = some f ∧ t.runState = .stopped ∧ t.regs = s.regs ∧ t.sr = s.sr ∧ t.iif = s.iif ∧ t.pc = s.pc

/-! ## The cycle and the host (46_cycle.md, 70_reset_and_hazards.md) -/

/-- When the four bytes at pc decode to a well-formed instruction and the next step runs a cycle, the step is exec of it, on the
state with the host interaction taken and before_cycle and before_execute emitted, followed by after_cycle unless a fault was
taken (46_cycle.md section 1; the events are log entry 2, the pending interactions log entry 1). -/
def Obligations.StepRunsTheDecodedInstruction : Prop :=
  ∀ (s : State) (i : Instr), s.RunsCycle → s.pc.toNat + 4 ≤ 262144 → i.wf = true →
    decodeBytes s.bytesAtPc = .ok (i, []) →
    step s = afterExecute (exec i
      { s with pending := s.pending.tail, trace := .beforeExecute i :: .beforeCycle :: s.trace })

/-- A cycle whose pc lies outside memory takes AddressOutOfBounds with access kind fetch; nothing else happens but the events
(46_cycle.md section 1; decisions D9, D15, D21; log entry 3). -/
def Obligations.FetchOutsideMemoryTakesTheFault : Prop :=
  ∀ s : State, s.RunsCycle → 262144 < s.pc.toNat + 4 →
    step s = .next (faulted { s with pending := s.pending.tail, trace := .beforeCycle :: s.trace }
      (.addressOutOfBounds s.pc s.pc .fetch .word))

/-- A cycle whose word does not decode takes DecodeFailure with the pc and the word; nothing of the word is executed
(60_exceptions.md section 1; decisions D9, D15, D21; log entry 3). -/
def Obligations.UndecodableWordTakesTheFault : Prop :=
  ∀ (s : State) (w : Word) (e : DecodeFailure), s.RunsCycle → s.pc.toNat + 4 ≤ 262144 →
    HoldsBytes s s.pc.toNat 4 w → decode w = .error e →
    step s = .next (faulted { s with pending := s.pending.tail, trace := .beforeCycle :: s.trace }
      (.decodeFailure s.pc w))

/-- Placing a word where the next step fetches it, the next step decodes and runs it (the model's own operation; log entry 12). -/
def Obligations.PlacedWordIsRunNext : Prop :=
  ∀ (s : State) (w : Word) (i : Instr), s.pc.toNat + 4 ≤ 262144 → decode w = .ok i →
    ∃ u, step (s.withFetchWord 32 w.toNat) = afterExecute (exec i u) ∧
      u.regs = s.regs ∧ u.pc = s.pc ∧ u.sr = s.sr ∧ u.iif = s.iif ∧ u.pending = s.pending ∧
      u.runState = .running ∧ u.fault = none ∧
      HoldsBytes u s.pc.toNat 4 w ∧ SameMemBut s.pc.toNat 4 s u

/-- A stored word is what a later fetch from its address reads, with nothing in between (20_memory.md section 6, an inference of the
spec). -/
def Obligations.StoredWordIsWhatTheNextFetchReads : Prop :=
  ∀ (s : State) (addr : Addr) (rd : Reg), (align .word (s.ea addr)).toNat < 262144 →
    ∃ t, exec (.store addr rd) s = .next t ∧
      ({ t with pc := align .word (s.ea addr) } : State).fetch = .ok (s.reg rd)

/-- The host interactions other than a cycle, reset and an accepted load: what each does, and which are refused with no effect
(decisions D11, D12, D15; log entry 1). -/
def Obligations.HostCommandsFollowTheTable : Prop :=
  ∀ s : State,
    (s.nextEvent = .tick → s.runState ≠ .running → step s = .next { s with pending := s.pending.tail }) ∧
    (s.nextEvent = .run → s.fault = none →
      step s = .next { s with runState := .running, trace := .beforeRun :: s.trace, pending := s.pending.tail }) ∧
    (s.nextEvent = .run → s.fault ≠ none → step s = .next { s with pending := s.pending.tail }) ∧
    (s.nextEvent = .pause → s.runState = .running →
      step s = .next { s with runState := .paused, pending := s.pending.tail }) ∧
    (s.nextEvent = .pause → s.runState ≠ .running → step s = .next { s with pending := s.pending.tail }) ∧
    (s.nextEvent = .stop →
      step s = .next { s with runState := .stopped, trace := .onStop :: s.trace, pending := s.pending.tail }) ∧
    (s.nextEvent = .step → s.runState = .running ∨ s.fault ≠ none →
      step s = .next { s with pending := s.pending.tail }) ∧
    (∀ image, s.nextEvent = .load image → s.runState ≠ .stopped ∨ 262144 < image.length →
      step s = .next { s with pending := s.pending.tail })

/-- A load taken while stopped, of an image that fits, zero-fills memory and places the image at address 0; nothing else changes
(20_memory.md section 5; decision D12). -/
def Obligations.ImageLoadFillsMemory : Prop :=
  ∀ (s : State) (image : List Byte), s.nextEvent = .load image → s.runState = .stopped → image.length ≤ 262144 →
    ∃ t, step s = .next t ∧ (∀ x, t.readByte x = image.getD x 0#8) ∧ t.pc = s.pc ∧
      t.regs = s.regs ∧ t.sr = s.sr ∧ t.iif = s.iif ∧ t.runState = s.runState ∧ t.fault = s.fault ∧ t.trace = s.trace

/-- A reset, taken in any state, gives every register, the pc and sr the value 0, sets iif, stops the core and clears the fault
record; memory is as it was and no event is emitted (R34's and R340's values; the fault record is decision D15, the silence of
reset decision D11; log entries 2 and 3). The state in which a model starts has the same values and memory all zero (decision
D22; log entry 4). -/
def Obligations.ResetGivesTheStartupValues : Prop :=
  (∀ s : State, s.nextEvent = .reset →
    ∃ t, step s = .next t ∧ (∀ r, t.reg r = 0#32) ∧ t.pc = 0#32 ∧ t.sr = 0#32 ∧ t.iif = true ∧
      t.runState = .stopped ∧ t.fault = none ∧ SameMem s t ∧ t.trace = s.trace) ∧
  (∀ r, State.reset.reg r = 0#32) ∧ State.reset.pc = 0#32 ∧ State.reset.sr = 0#32 ∧ State.reset.iif = true ∧
  State.reset.runState = .stopped ∧ State.reset.fault = none ∧ (∀ x, State.reset.readByte x = 0#8)

/-! ## The parameters of R4 -/

/-- Whatever the parameters, no step stops and every step keeps the invariant of the machine (00_scope.md section 3; the free values
of log entry 21 are covered whatever they are). -/
def Obligations.EveryParameterValueKeepsTheInvariant : Prop :=
  ∀ (p : Config.Params) (s : State), s.Inv → ∃ t, stepWith p s = .next t ∧ t.Inv

/-- What the parameters change (table of parameters of 92_eei_decisions.md). At the defaults the parametric core is the core. No
step depends on FREQ. The effect of a decoded instruction differs from the default only for SUB, SBC and CMP under not_borrow and
for the shifts and rotates under another SHIFT_COUNT_BITS. Under not_borrow SUB, SBC and CMP leave the complement of C, SBC
reading the complement too (decision D4; log entry 8). With five or more count bits a shift or rotate whose count is below 32 is
as at the default, and whatever the count it completes, with V = 0, N and Z from the result and no other register, bit of sr or
byte changed (decision D5; for a count of 32 or more the result and C are free values, log entry 21, so nothing is said of them).
-/
def Obligations.ParametersActOnlyWhereTheyAreRead : Prop :=
  (∀ s, stepWith defaultParams s = step s) ∧
  (∀ (p : Config.Params) (f : Rat) (s : State), stepWith { p with freq := f } s = stepWith p s) ∧
  (∀ (p : Config.Params) (i : Instr) (s : State), execWith p i s ≠ exec i s →
    (p.subC = .notBorrow ∧ ∃ a b d, i = .sub a b d ∨ i = .sbc a b d ∨ i = .cmp a b) ∨
    (p.shiftCountBits ≠ 5 ∧
      ∃ a b d, i = .shl a b d ∨ i = .shr a b d ∨ i = .ashr a b d ∨ i = .rotl a b d ∨ i = .rotr a b d)) ∧
  (∀ (p : Config.Params) (s : State) (a : Reg) (b : RegImm) (d : Reg), p.subC = .notBorrow →
    (∃ t, exec (.sub a b d) s = .next t ∧ execWith p (.sub a b d) s = .next (t.setFlag .c (!t.flag .c))) ∧
    (∃ t, exec (.cmp a b) s = .next t ∧ execWith p (.cmp a b) s = .next (t.setFlag .c (!t.flag .c))) ∧
    (∃ t, exec (.sbc a b d) s = .next t ∧
      execWith p (.sbc a b d) (s.setFlag .c (!s.flag .c)) = .next (t.setFlag .c (!t.flag .c)))) ∧
  (∀ (p : Config.Params) (i : Instr) (s : State) (a : Reg) (b : RegImm) (d : Reg), 5 ≤ p.shiftCountBits →
    (i = .shl a b d ∨ i = .shr a b d ∨ i = .ashr a b d ∨ i = .rotl a b d ∨ i = .rotr a b d) →
    ((s.regImm b).toNat % 2 ^ p.shiftCountBits < 32 → execWith p i s = exec i s) ∧
    ∃ t, execWith p i s = .next t ∧
      t.flag .n = (t.reg d).getLsbD 31 ∧ t.flag .z = decide (t.reg d = 0#32) ∧ t.flag .v = false ∧ t.pc = pcAfter s ∧
      SameRegsBut [d] s t ∧ SameSrBut [0, 1, 2, 3] s t ∧ SameMem s t ∧ SameControl s t)
end

