-- ==== Sys2Proof/Laws/Encode.lean ====
section
/-! SUPPORT. The fields of the two word layouts the encoder uses, each read back by the decoder's field, and the small round trips
of registers and immediates. -/

namespace Sys2Proof

variable (op : BitVec 5) (b26 : BitVec 1) (f23 f20 : BitVec 3) (low : BitVec 20) (cc : BitVec 4)

/-- The bits of the first layout. -/
theorem getLsbD_wordOf (k : Nat) : (wordOf op b26 f23 f20 low).getLsbD k =
    if k < 20 then low.getLsbD k else if k < 23 then f20.getLsbD (k - 20) else
    if k < 26 then f23.getLsbD (k - 23) else if k < 27 then b26.getLsbD (k - 26) else op.getLsbD (k - 27) := by
  simp only [wordOf, BitVec.getLsbD_append]
  by_cases h0 : k < 20
  · simp only [h0, if_true]
  by_cases h1 : k < 23
  · simp only [h0, h1, show k - 20 < 3 by omega, if_true, if_false]
  by_cases h2 : k < 26
  · simp only [h0, h1, h2, show ¬ k - 20 < 3 by omega, show k - 20 - 3 = k - 23 by omega,
      show k - 23 < 3 by omega, if_true, if_false]
  by_cases h3 : k < 27
  · simp only [h0, h1, h2, h3, show ¬ k - 20 < 3 by omega, show ¬ k - 20 - 3 < 3 by omega,
      show k - 20 - 3 - 3 = k - 26 by omega, show k - 26 < 1 by omega, if_true, if_false]
  · simp only [h0, h1, h2, h3, show ¬ k - 20 < 3 by omega, show ¬ k - 20 - 3 < 3 by omega,
      show ¬ k - 20 - 3 - 3 < 1 by omega, if_false, show k - 20 - 3 - 3 - 1 = k - 27 by omega]

/-- The bits of the layout with a condition. -/
theorem getLsbD_condWord (k : Nat) : (condWord op b26 cc low).getLsbD k =
    if k < 20 then low.getLsbD k else if k < 22 then false else
    if k < 26 then cc.getLsbD (k - 22) else if k < 27 then b26.getLsbD (k - 26) else op.getLsbD (k - 27) := by
  simp only [condWord, BitVec.getLsbD_append, BitVec.getLsbD_zero]
  by_cases h0 : k < 20
  · simp only [h0, if_true]
  by_cases h1 : k < 22
  · simp only [h0, h1, show k - 20 < 2 by omega, if_true, if_false]
  by_cases h2 : k < 26
  · simp only [h0, h1, h2, show ¬ k - 20 < 2 by omega, show k - 20 - 2 = k - 22 by omega,
      show k - 22 < 4 by omega, if_true, if_false]
  by_cases h3 : k < 27
  · simp only [h0, h1, h2, h3, show ¬ k - 20 < 2 by omega, show ¬ k - 20 - 2 < 4 by omega,
      show k - 20 - 2 - 4 = k - 26 by omega, show k - 26 < 1 by omega, if_true, if_false]
  · simp only [h0, h1, h2, h3, show ¬ k - 20 < 2 by omega, show ¬ k - 20 - 2 < 4 by omega,
      show ¬ k - 20 - 2 - 4 < 1 by omega, if_false, show k - 20 - 2 - 4 - 1 = k - 27 by omega]

/-! ## Fields read back -/

@[simp] theorem opField_wordOf : opField (wordOf op b26 f23 f20 low) = op := by
  apply BitVec.eq_of_getLsbD_eq
  intro k hk
  rw [opField, BitVec.getLsbD_extractLsb', getLsbD_wordOf, if_neg (by omega), if_neg (by omega), if_neg (by omega),
    if_neg (by omega), show 27 + k - 27 = k by omega]
  simp [hk]

@[simp] theorem opField_condWord : opField (condWord op b26 cc low) = op := by
  apply BitVec.eq_of_getLsbD_eq
  intro k hk
  rw [opField, BitVec.getLsbD_extractLsb', getLsbD_condWord, if_neg (by omega), if_neg (by omega), if_neg (by omega),
    if_neg (by omega), show 27 + k - 27 = k by omega]
  simp [hk]

@[simp] theorem condField_condWord : condField (condWord op b26 cc low) = cc := by
  apply BitVec.eq_of_getLsbD_eq
  intro k hk
  rw [condField, BitVec.getLsbD_extractLsb', getLsbD_condWord, if_neg (by omega), if_neg (by omega), if_pos (by omega),
    show 22 + k - 22 = k by omega]
  simp [hk]

@[simp] theorem extract_rd_wordOf : (wordOf op b26 f23 f20 low).extractLsb' 23 3 = f23 := by
  apply BitVec.eq_of_getLsbD_eq
  intro k hk
  rw [BitVec.getLsbD_extractLsb', getLsbD_wordOf, if_neg (by omega), if_neg (by omega), if_pos (by omega),
    show 23 + k - 23 = k by omega]
  simp [hk]

@[simp] theorem extract_rs1_wordOf : (wordOf op b26 f23 f20 low).extractLsb' 20 3 = f20 := by
  apply BitVec.eq_of_getLsbD_eq
  intro k hk
  rw [BitVec.getLsbD_extractLsb', getLsbD_wordOf, if_neg (by omega), if_pos (by omega), show 20 + k - 20 = k by omega]
  simp [hk]

@[simp] theorem extract_low_wordOf : (wordOf op b26 f23 f20 low).extractLsb' 0 20 = low := by
  apply BitVec.eq_of_getLsbD_eq
  intro k hk
  rw [BitVec.getLsbD_extractLsb', getLsbD_wordOf, if_pos (by omega), Nat.zero_add]
  simp [hk]

@[simp] theorem extract_low_condWord : (condWord op b26 cc low).extractLsb' 0 20 = low := by
  apply BitVec.eq_of_getLsbD_eq
  intro k hk
  rw [BitVec.getLsbD_extractLsb', getLsbD_condWord, if_pos (by omega), Nat.zero_add]
  simp [hk]

@[simp] theorem extract_rs2_wordOf : (wordOf op b26 f23 f20 low).extractLsb' 17 3 = low.extractLsb' 17 3 := by
  apply BitVec.eq_of_getLsbD_eq
  intro k hk
  rw [BitVec.getLsbD_extractLsb', getLsbD_wordOf, if_pos (by omega), BitVec.getLsbD_extractLsb']

@[simp] theorem extract_rs2_condWord : (condWord op b26 cc low).extractLsb' 17 3 = low.extractLsb' 17 3 := by
  apply BitVec.eq_of_getLsbD_eq
  intro k hk
  rw [BitVec.getLsbD_extractLsb', getLsbD_condWord, if_pos (by omega), BitVec.getLsbD_extractLsb']

/-! ## Single bits read back (in the form simp gives them) -/

@[simp] theorem getElem26_wordOf : (wordOf op b26 f23 f20 low)[26] = b26[0] := by
  rw [← BitVec.getLsbD_eq_getElem, getLsbD_wordOf]; rfl

@[simp] theorem getElem21_wordOf : (wordOf op b26 f23 f20 low)[21] = f20[1] := by
  rw [← BitVec.getLsbD_eq_getElem, getLsbD_wordOf]; rfl

@[simp] theorem getElem20_wordOf : (wordOf op b26 f23 f20 low)[20] = f20[0] := by
  rw [← BitVec.getLsbD_eq_getElem, getLsbD_wordOf]; rfl

@[simp] theorem getElem26_condWord : (condWord op b26 cc low)[26] = b26[0] := by
  rw [← BitVec.getLsbD_eq_getElem, getLsbD_condWord]; rfl

@[simp] theorem getElem1_condWord : (condWord op b26 cc low)[1] = low[1] := by
  rw [← BitVec.getLsbD_eq_getElem, getLsbD_condWord]; rfl

@[simp] theorem getElem0_condWord : (condWord op b26 cc low)[0] = low[0] := by
  rw [← BitVec.getLsbD_eq_getElem, getLsbD_condWord]; rfl

/-! ## Small round trips -/

@[simp] theorem regOf_regCode (r : Reg) : regOf (regCode r) = r := by cases r <;> rfl

@[simp] theorem regCode_regOf (c : BitVec 3) : regCode (regOf c) = c := by revert c; decide

@[simp] theorem extract_regLow (r : Reg) : (regLow r).extractLsb' 17 3 = regCode r := by cases r <;> decide

@[simp] theorem immLow_sext20 (v : BitVec 20) : immLow (sext20 v) = v := by
  apply BitVec.eq_of_getLsbD_eq
  intro k hk
  rw [immLow, sext20, BitVec.getLsbD_setWidth, BitVec.getLsbD_signExtend]
  simp [hk, show k < 32 by omega]

/-- A well-formed immediate is the extension of its low 20 bits. -/
theorem sext20_immLow {v : Word} (h : isImm20 v = true) : sext20 (immLow v) = v := by
  exact beq_iff_eq.mp h

/-! ## The fields of each format read back by the decoder -/

@[simp] theorem opField_aluWord (r : Reg) (src : RegImm) : opField (aluWord op r src f23) = op := by simp [aluWord]

@[simp] theorem rdField_aluWord (r d : Reg) (src : RegImm) : rdField (aluWord op r src (regCode d)) = d := by
  simp [aluWord, rdField]

@[simp] theorem rs1Field_aluWord (r : Reg) (src : RegImm) : rs1Field (aluWord op r src f23) = r := by
  simp [aluWord, rs1Field]

theorem regImmField_aluWord (r : Reg) {src : RegImm} (h : src.wf = true) : regImmField (aluWord op r src f23) = src := by
  cases src with
  | imm v => simp [regImmField, aluWord, RegImm.bit26, immField, RegImm.low, sext20_immLow h]
  | reg q => simp [regImmField, aluWord, RegImm.bit26, rs2Field, RegImm.low]

theorem regImmField_condWord {src : RegImm} (h : src.wf = true) :
    regImmField (condWord op src.bit26 cc src.low) = src := by
  cases src with
  | imm v => simp [regImmField, RegImm.bit26, immField, RegImm.low, sext20_immLow h]
  | reg q => simp [regImmField, RegImm.bit26, rs2Field, RegImm.low]

@[simp] theorem opField_memWord (a : Addr) (r : Reg) : opField (memWord op a r) = op := by cases a <;> simp [memWord]

@[simp] theorem rdField_memWord (a : Addr) (r : Reg) : rdField (memWord op a r) = r := by
  cases a <;> simp [memWord, rdField]

theorem addrField_memWord {a : Addr} (r : Reg) (h : a.wf = true) : addrField (memWord op a r) = a := by
  cases a with
  | abs v => simp [addrField, memWord, immField, sext20_immLow h]
  | base b v => simp [addrField, memWord, immField, rs1Field, sext20_immLow h]

@[simp] theorem opField_moveWord (a : MoveSrc) (d : MoveDst) : opField (moveWord op a d) = op := by
  cases a <;> simp [moveWord]

theorem moveSrcField_moveWord {a : MoveSrc} (d : MoveDst) (h : a.wf = true) : moveSrcField (moveWord op a d) = a := by
  cases a with
  | sr => cases d <;> simp [moveSrcField, moveWord, MoveDst.bit20]
  | imm v => cases d <;> simp [moveSrcField, moveWord, MoveDst.bit20, immField, sext20_immLow h]
  | reg q => cases d <;> simp [moveSrcField, moveWord, MoveDst.bit20, rs2Field]

@[simp] theorem moveDstField_moveWord (a : MoveSrc) (d : MoveDst) : moveDstField (moveWord op a d) = d := by
  cases a <;> cases d <;> simp [moveDstField, moveWord, MoveDst.bit20, MoveDst.rd, rdField]

/-- An extended 20-bit value is well-formed. -/
theorem isImm20_sext20 (v : BitVec 20) : isImm20 (sext20 v) = true := by
  have h := immLow_sext20 v
  rw [immLow] at h
  simp only [isImm20, h, beq_iff_eq]
  rfl

end Sys2Proof
end

