-- ==== Sys2Proof/Laws/Flags.lean ====
section
/-! SUPPORT. What the flag primitives do, bit by bit, and the values of the shared computations. -/

namespace Sys2Proof.Machine

theorem Flag.bit_lt (f : Flag) : f.bit < 32 := by cases f <;> decide

theorem Flag.bit_injective {f g : Flag} (h : f.bit = g.bit) : f = g := by
  cases f <;> cases g <;> first | rfl | simp [Flag.bit] at h

/-- The set-flag primitive, bit by bit. -/
theorem getLsbD_setFlag (sr : Word) (f : Flag) (b : Bool) (k : Nat) :
    (setFlag sr f b).getLsbD k = if k = f.bit then b else sr.getLsbD k := by
  have hf := f.bit_lt
  have hone : ((1#32) <<< f.bit).getLsbD k = decide (k = f.bit) := by
    simp only [BitVec.getLsbD_shiftLeft, BitVec.getLsbD_one]
    by_cases h : k = f.bit
    · simp [h, hf]
    · simp [h]; omega
  cases b
  · simp only [setFlag, Bool.false_eq_true, if_false, BitVec.getLsbD_and, BitVec.getLsbD_not, hone]
    by_cases h : k = f.bit
    · simp [h]
    · by_cases hk : k < 32
      · simp [h, hk]
      · simp [h, BitVec.getLsbD_of_ge sr k (by omega)]
  · simp only [setFlag, if_true, BitVec.getLsbD_or, hone]
    by_cases h : k = f.bit <;> simp [h]

@[simp] theorem getFlag_setFlag (sr : Word) (f g : Flag) (b : Bool) :
    getFlag (setFlag sr f b) g = if g = f then b else getFlag sr g := by
  simp only [getFlag, getLsbD_setFlag]
  by_cases h : g = f
  · simp [h]
  · have hb : ¬ g.bit = f.bit := fun e => h (Flag.bit_injective e)
    simp [h, hb]

/-- N, C, V and Z written: each of the four bits, and every other bit as before. -/
theorem getLsbD_setNCVZ (sr : Word) (n c v z : Bool) (k : Nat) :
    (setNCVZ sr n c v z).getLsbD k =
      if k = 3 then z else if k = 2 then v else if k = 1 then c else if k = 0 then n else sr.getLsbD k := by
  simp only [setNCVZ, getLsbD_setFlag, Flag.bit]
  rfl

@[simp] theorem getFlag_setNCVZ_n (sr : Word) (n c v z : Bool) : getFlag (setNCVZ sr n c v z) .n = n := by
  simp [setNCVZ]

@[simp] theorem getFlag_setNCVZ_c (sr : Word) (n c v z : Bool) : getFlag (setNCVZ sr n c v z) .c = c := by
  simp [setNCVZ]

@[simp] theorem getFlag_setNCVZ_v (sr : Word) (n c v z : Bool) : getFlag (setNCVZ sr n c v z) .v = v := by
  simp [setNCVZ]

@[simp] theorem getFlag_setNCVZ_z (sr : Word) (n c v z : Bool) : getFlag (setNCVZ sr n c v z) .z = z := by
  simp [setNCVZ]

/-- The adder's result is the sum modulo 2^32. -/
theorem addC_res (a b : Word) (cin : Bool) : (addC a b cin).res = a + b + BitVec.ofNat 32 cin.toNat := by
  apply BitVec.eq_of_toNat_eq
  simp [addC, BitVec.toNat_add]

/-- The subtractor's result is the difference modulo 2^32, whatever the convention. -/
theorem subB_res (conv : Config.SubCConvention) (a b : Word) (bin : Bool) :
    (subB conv a b bin).res = a - b - BitVec.ofNat 32 bin.toNat := by
  have h : (subB conv a b bin).res = (addC a (~~~b) (!bin)).res := by cases conv <;> rfl
  rw [h, addC_res]
  cases bin
  · show a + ~~~b + 1#32 = a - b - 0#32
    bv_omega
  · show a + ~~~b + 0#32 = a - b - 1#32
    bv_omega

end Sys2Proof.Machine
end

