-- ==== Sys2Proof/Laws/Memory.lean ====
section
/-! SUPPORT. Memory as a list of cells: a read after a write, the canonical form, the image, and the accesses of the three widths. -/

namespace Sys2Proof.Machine

/-! ## A read after a write -/

theorem Memory.read_filter_ne (m : Memory) (a x : Nat) (h : x ≠ a) :
    Memory.read (m.filter fun c => c.1 != a) x = m.read x := by
  induction m with
  | nil => rfl
  | cons c m ih =>
    by_cases hc : c.1 = a
    · have : c.1 ≠ x := fun e => h (e.symm.trans hc)
      simp [hc, Memory.read, ih, h.symm]
    · simp [hc, Memory.read, ih]

theorem Memory.read_filter_self (m : Memory) (a : Nat) : Memory.read (m.filter fun c => c.1 != a) a = 0#8 := by
  induction m with
  | nil => rfl
  | cons c m ih =>
    by_cases hc : c.1 = a
    · simp [hc, ih]
    · simp [hc, Memory.read, ih]

theorem Memory.read_insert_self (m : Memory) (a : Nat) (v : Byte) (h : ∀ c ∈ m, c.1 ≠ a) :
    Memory.read (Memory.insert m (a, v)) a = v := by
  induction m with
  | nil => simp [Memory.insert, Memory.read]
  | cons c m ih =>
    by_cases hc : a < c.1
    · simp [Memory.insert, hc, Memory.read]
    · have h1 : c.1 ≠ a := h c (by simp)
      simp [Memory.insert, hc, Memory.read, h1, ih fun d hd => h d (by simp [hd])]

theorem Memory.read_insert_ne (m : Memory) (a x : Nat) (v : Byte) (h : x ≠ a) :
    Memory.read (Memory.insert m (a, v)) x = m.read x := by
  induction m with
  | nil => simp [Memory.insert, Memory.read, h.symm]
  | cons c m ih =>
    by_cases hc : a < c.1
    · simp [Memory.insert, hc, Memory.read, h.symm]
    · simp [Memory.insert, hc, Memory.read, ih]

/-- A cell reads what was last written to it. -/
@[simp] theorem Memory.read_write_self (m : Memory) (a : Nat) (v : Byte) : (m.write a v).read a = v := by
  by_cases hv : v = 0#8
  · simp [Memory.write, hv, Memory.read_filter_self]
  · simp [Memory.write, hv]
    exact Memory.read_insert_self _ a v fun c hc => by simpa using (List.mem_filter.mp hc).2

/-- A write leaves every other cell alone. -/
theorem Memory.read_write_ne (m : Memory) (a x : Nat) (v : Byte) (h : x ≠ a) : (m.write a v).read x = m.read x := by
  by_cases hv : v = 0#8
  · simp [Memory.write, hv, Memory.read_filter_ne m a x h]
  · simp [Memory.write, hv, Memory.read_insert_ne _ a x v h, Memory.read_filter_ne m a x h]

theorem Memory.read_write (m : Memory) (a x : Nat) (v : Byte) :
    (m.write a v).read x = if x = a then v else m.read x := by
  by_cases h : x = a
  · simp [h]
  · simp [h, Memory.read_write_ne]

/-! ## The canonical form -/

theorem Memory.wfFrom_mono {low low' : Nat} {m : Memory} (h : low' ≤ low) (hm : Memory.wfFrom low m = true) :
    Memory.wfFrom low' m = true := by
  cases m with
  | nil => rfl
  | cons c m =>
    simp only [Memory.wfFrom, Bool.and_eq_true, decide_eq_true_eq] at hm ⊢
    exact ⟨⟨⟨by omega, hm.1.1.2⟩, hm.1.2⟩, hm.2⟩

theorem Memory.wfFrom_filter (low a : Nat) (m : Memory) (hm : Memory.wfFrom low m = true) :
    Memory.wfFrom low (m.filter fun c => c.1 != a) = true := by
  induction m generalizing low with
  | nil => rfl
  | cons c m ih =>
    simp only [Memory.wfFrom, Bool.and_eq_true, decide_eq_true_eq] at hm
    by_cases hc : c.1 = a
    · simp only [hc, List.filter, bne_self_eq_false]
      exact Memory.wfFrom_mono (by omega) (ih _ hm.2)
    · have : (c.1 != a) = true := by simp [hc]
      simp only [List.filter, this, Memory.wfFrom, Bool.and_eq_true, decide_eq_true_eq]
      exact ⟨hm.1, ih _ hm.2⟩

theorem Memory.wfFrom_insert (low a : Nat) (v : Byte) (m : Memory) (hm : Memory.wfFrom low m = true)
    (hne : ∀ c ∈ m, c.1 ≠ a) (hlow : low ≤ a) (ha : a < Config.memSize) (hv : v ≠ 0#8) :
    Memory.wfFrom low (Memory.insert m (a, v)) = true := by
  induction m generalizing low with
  | nil => simp [Memory.insert, Memory.wfFrom, hlow, ha, hv]
  | cons c m ih =>
    simp only [Memory.wfFrom, Bool.and_eq_true, decide_eq_true_eq] at hm
    by_cases hc : a < c.1
    · simp only [Memory.insert, hc, if_true, Memory.wfFrom, Bool.and_eq_true, decide_eq_true_eq]
      exact ⟨⟨⟨hlow, ha⟩, by simpa using hv⟩, ⟨⟨by omega, hm.1.1.2⟩, hm.1.2⟩, hm.2⟩
    · have h1 : c.1 ≠ a := hne c (by simp)
      simp only [Memory.insert, hc, if_false, Memory.wfFrom, Bool.and_eq_true, decide_eq_true_eq]
      exact ⟨hm.1, ih _ hm.2 (fun d hd => hne d (by simp [hd])) (by omega)⟩

/-- A write inside memory keeps the canonical form. -/
theorem Memory.wf_write (m : Memory) (a : Nat) (v : Byte) (hm : m.wf = true) (ha : a < Config.memSize) :
    (m.write a v).wf = true := by
  have hf := Memory.wfFrom_filter 0 a m hm
  by_cases hv : v = 0#8
  · simpa [Memory.write, hv, Memory.wf] using hf
  · simp only [Memory.write, hv, if_false, Memory.wf]
    exact Memory.wfFrom_insert 0 a v _ hf (by simp) (Nat.zero_le _) ha hv

/-- A store inside memory keeps the canonical form. -/
theorem Memory.wf_writeN (m : Memory) (a : Nat) (w : Width) (v : Word) (hm : m.wf = true)
    (ha : a + w.bytes ≤ Config.memSize) : (m.writeN a w v).wf = true := by
  cases w <;> simp only [Width.bytes] at ha <;> simp only [Memory.writeN]
  · exact Memory.wf_write _ _ _ hm (by omega)
  · exact Memory.wf_write _ _ _ (Memory.wf_write _ _ _ hm (by omega)) (by omega)
  · exact Memory.wf_write _ _ _ (Memory.wf_write _ _ _ (Memory.wf_write _ _ _
      (Memory.wf_write _ _ _ hm (by omega)) (by omega)) (by omega)) (by omega)

theorem Memory.wfFrom_imageFrom (k : Nat) (bs : List Byte) (h : k + bs.length ≤ Config.memSize) :
    Memory.wfFrom k (Memory.imageFrom k bs) = true := by
  induction bs generalizing k with
  | nil => rfl
  | cons b bs ih =>
    simp only [List.length_cons] at h
    have h' := ih (k + 1) (by omega)
    by_cases hb : b = 0#8
    · simpa [Memory.imageFrom, hb] using Memory.wfFrom_mono (Nat.le_succ k) h'
    · simp only [Memory.imageFrom, hb, if_false, Memory.wfFrom, Bool.and_eq_true, decide_eq_true_eq]
      exact ⟨⟨⟨Nat.le_refl k, by omega⟩, by simpa using hb⟩, h'⟩

/-- The memory a load leaves has the canonical form. -/
theorem Memory.wf_ofImage (bs : List Byte) (h : bs.length ≤ Config.memSize) : (Memory.ofImage bs).wf = true :=
  Memory.wfFrom_imageFrom 0 bs (by omega)

/-- Memory at reset has the canonical form. -/
theorem Memory.wf_reset : State.reset.mem.wf = true := rfl

/-! ## Accesses -/

/-- Byte k of a joined word is the byte given for it. -/
theorem byteOf_joinWord (b0 b1 b2 b3 : Byte) :
    byteOf (joinWord (joinHalf b0 b1) (joinHalf b2 b3)) 0 = b0 ∧
    byteOf (joinWord (joinHalf b0 b1) (joinHalf b2 b3)) 1 = b1 ∧
    byteOf (joinWord (joinHalf b0 b1) (joinHalf b2 b3)) 2 = b2 ∧
    byteOf (joinWord (joinHalf b0 b1) (joinHalf b2 b3)) 3 = b3 := by
  refine ⟨?_, ?_, ?_, ?_⟩ <;> ext k hk <;>
    simp only [byteOf, joinWord, joinHalf, BitVec.getElem_extractLsb', BitVec.getLsbD_append]
  · simp [hk, show k < 16 by omega, BitVec.getLsbD_eq_getElem]
  · simp [hk, show 8 + k < 16 by omega, BitVec.getLsbD_eq_getElem]
  · simp [hk, show ¬ 16 + k < 16 by omega, BitVec.getLsbD_eq_getElem]
  · simp [hk, show ¬ 24 + k < 16 by omega, show 24 + k - 16 = 8 + k by omega, BitVec.getLsbD_eq_getElem]

/-- A word is the join of its four bytes. -/
theorem joinWord_byteOf (w : Word) :
    joinWord (joinHalf (byteOf w 0) (byteOf w 1)) (joinHalf (byteOf w 2) (byteOf w 3)) = w := by
  apply BitVec.eq_of_getLsbD_eq
  intro k hk
  simp only [joinWord, joinHalf, BitVec.getLsbD_append, byteOf, BitVec.getLsbD_extractLsb']
  split
  · split
    · simp; omega
    · rw [show 8 * 1 + (k - 8) = k by omega]; simp; omega
  · split
    · rw [show 8 * 2 + (k - 16) = k by omega]; simp; omega
    · rw [show 8 * 3 + (k - 16 - 8) = k by omega]; simp; omega

@[simp] theorem Width.bytes_byte : Width.byte.bytes = 1 := rfl

@[simp] theorem Width.bytes_half : Width.half.bytes = 2 := rfl

@[simp] theorem Width.bytes_word : Width.word.bytes = 4 := rfl

/-- A cell a store reaches holds its byte of the value. -/
theorem Memory.read_writeN_in (m : Memory) (a : Nat) (w : Width) (v : Word) (k : Nat) (h : k < w.bytes) :
    (m.writeN a w v).read (a + k) = byteOf v k := by
  cases w
  · rw [Width.bytes_byte] at h
    obtain rfl : k = 0 := by omega
    simp [Memory.writeN]
  · rw [Width.bytes_half] at h
    obtain rfl | rfl : k = 0 ∨ k = 1 := by omega
    all_goals simp [Memory.writeN, Memory.read_write]
  · rw [Width.bytes_word] at h
    obtain rfl | rfl | rfl | rfl : k = 0 ∨ k = 1 ∨ k = 2 ∨ k = 3 := by omega
    all_goals simp [Memory.writeN, Memory.read_write]

/-- A cell a store does not reach is as before. -/
theorem Memory.read_writeN_out (m : Memory) (a : Nat) (w : Width) (v : Word) (x : Nat) (h : x < a ∨ a + w.bytes ≤ x) :
    (m.writeN a w v).read x = m.read x := by
  cases w
  · rw [Width.bytes_byte] at h
    exact Memory.read_write_ne _ _ _ _ (by omega)
  · rw [Width.bytes_half] at h
    rw [Memory.writeN, Memory.read_write_ne _ _ _ _ (by omega), Memory.read_write_ne _ _ _ _ (by omega)]
  · rw [Width.bytes_word] at h
    rw [Memory.writeN, Memory.read_write_ne _ _ _ _ (by omega), Memory.read_write_ne _ _ _ _ (by omega),
      Memory.read_write_ne _ _ _ _ (by omega), Memory.read_write_ne _ _ _ _ (by omega)]

/-- A word written reads back. -/
theorem Memory.readN_writeN_word (m : Memory) (a : Nat) (v : Word) : (m.writeN a .word v).readN a .word = v := by
  have h (k : Nat) (hk : k < 4) := Memory.read_writeN_in m a .word v k hk
  have h0 := h 0 (by omega)
  have h3 := h 3 (by omega)
  simp only [Memory.readN, Memory.readHalf, show a + 2 + 1 = a + 3 by omega]
  rw [show (m.writeN a .word v).read a = byteOf v 0 from h0, h 1 (by omega), h 2 (by omega), h3]
  exact joinWord_byteOf v

/-- Two memories that agree on the bytes of an access read the same. -/
theorem Memory.readN_congr {m m' : Memory} {a : Nat} {w : Width} (h : ∀ k, k < w.bytes → m'.read (a + k) = m.read (a + k)) :
    m'.readN a w = m.readN a w := by
  cases w <;> simp only [Width.bytes] at h
  · simp [Memory.readN, show m'.read a = m.read a from h 0 (by omega)]
  · simp [Memory.readN, Memory.readHalf, show m'.read a = m.read a from h 0 (by omega), h 1 (by omega)]
  · simp [Memory.readN, Memory.readHalf, show m'.read a = m.read a from h 0 (by omega), h 1 (by omega), h 2 (by omega),
      show m'.read (a + 2 + 1) = m.read (a + 2 + 1) from h 3 (by omega)]

/-- The bytes of a value read: the cells' bytes, then zeros. -/
theorem Memory.extract_readN (m : Memory) (a : Nat) (w : Width) (k : Nat) (hk : k < 4) :
   (m.readN a w).extractLsb' (8 * k) 8 = if k < w.bytes then m.read (a + k) else 0#8 := by
  have hk' : k = 0 ∨ k = 1 ∨ k = 2 ∨ k = 3 := by omega
  cases w
  · rw [Width.bytes_byte, Memory.readN]
    apply BitVec.eq_of_getLsbD_eq
    intro j hj
    rw [BitVec.getLsbD_extractLsb', BitVec.getLsbD_setWidth]
    rcases hk' with rfl | rfl | rfl | rfl
    · simp only [hj, Nat.mul_zero, Nat.zero_add, Nat.add_zero, if_pos (show 0 < 1 by omega), decide_true, Bool.true_and, show j < 32 by omega]
    all_goals rw [if_neg (by omega), BitVec.getLsbD_of_ge (m.read a) _ (by omega)]; simp
  · rw [Width.bytes_half, Memory.readN, Memory.readHalf, joinHalf]
    apply BitVec.eq_of_getLsbD_eq
    intro j hj
    rw [BitVec.getLsbD_extractLsb', BitVec.getLsbD_setWidth, BitVec.getLsbD_append]
    rcases hk' with rfl | rfl | rfl | rfl
    · simp only [hj, Nat.mul_zero, Nat.zero_add, Nat.add_zero, if_pos (show 0 < 2 by omega), if_true, decide_true, Bool.true_and, show j < 32 by omega]
    · rw [if_pos (show 1 < 2 by omega), if_neg (by omega)]; simp only [hj, show 8 * 1 + j-8 = j by omega, decide_true, Bool.true_and, show 8 * 1 + j < 32 by omega]
    · rw [if_neg (by omega), if_neg (by omega), BitVec.getLsbD_of_ge (m.read (a + 1)) _ (by omega)]; simp
    · rw [if_neg (by omega), if_neg (by omega), BitVec.getLsbD_of_ge (m.read (a + 1)) _ (by omega)]; simp
  · have h := byteOf_joinWord (m.read a) (m.read (a + 1)) (m.read (a + 2)) (m.read (a + 3))
    rcases hk' with rfl | rfl | rfl | rfl
    · exact h.1
    · exact h.2.1
    · exact h.2.2.1
    · exact h.2.2.2

/-- Two words are equal when their four bytes are. -/
theorem Word.ext_bytes (v w : Word) (h : ∀ k, k < 4 → v.extractLsb' (8 * k) 8 = w.extractLsb' (8 * k) 8) : v = w := by
  rw [← joinWord_byteOf v, ← joinWord_byteOf w]
  simp only [byteOf, h 0 (by omega), h 1 (by omega), h 2 (by omega), h 3 (by omega)]

end Sys2Proof.Machine
end

