-- ==== Sys2Proof/Laws/State.lean ====
section
/-! SUPPORT. One lemma per field per update of the state, each true by unfolding the update once, so that no later proof unfolds a
record update; and the same for the three views of the state: a register, a byte of memory, a flag. -/

namespace Sys2Proof.Machine

/-! ## setReg -/

@[simp] theorem State.setReg_regs (s : State) (r : Reg) (v : Word) : (s.setReg r v).regs = s.regs.set r v := rfl
@[simp] theorem State.setReg_pc (s : State) (r : Reg) (v : Word) : (s.setReg r v).pc = s.pc := rfl
@[simp] theorem State.setReg_sr (s : State) (r : Reg) (v : Word) : (s.setReg r v).sr = s.sr := rfl
@[simp] theorem State.setReg_iif (s : State) (r : Reg) (v : Word) : (s.setReg r v).iif = s.iif := rfl
@[simp] theorem State.setReg_mem (s : State) (r : Reg) (v : Word) : (s.setReg r v).mem = s.mem := rfl
@[simp] theorem State.setReg_runState (s : State) (r : Reg) (v : Word) : (s.setReg r v).runState = s.runState := rfl
@[simp] theorem State.setReg_fault (s : State) (r : Reg) (v : Word) : (s.setReg r v).fault = s.fault := rfl
@[simp] theorem State.setReg_pending (s : State) (r : Reg) (v : Word) : (s.setReg r v).pending = s.pending := rfl
@[simp] theorem State.setReg_trace (s : State) (r : Reg) (v : Word) : (s.setReg r v).trace = s.trace := rfl
@[simp] theorem State.setReg_readByte (s : State) (r : Reg) (v : Word) (a : Nat) : (s.setReg r v).readByte a = s.readByte a := rfl
@[simp] theorem State.setReg_flag (s : State) (r : Reg) (v : Word) (g : Flag) : (s.setReg r v).flag g = s.flag g := rfl

/-! ## setPc -/

@[simp] theorem State.setPc_regs (s : State) (v : Word) : (s.setPc v).regs = s.regs := rfl
@[simp] theorem State.setPc_pc (s : State) (v : Word) : (s.setPc v).pc = v &&& 0xFFFFFFFC#32 := rfl
@[simp] theorem State.setPc_sr (s : State) (v : Word) : (s.setPc v).sr = s.sr := rfl
@[simp] theorem State.setPc_iif (s : State) (v : Word) : (s.setPc v).iif = s.iif := rfl
@[simp] theorem State.setPc_mem (s : State) (v : Word) : (s.setPc v).mem = s.mem := rfl
@[simp] theorem State.setPc_runState (s : State) (v : Word) : (s.setPc v).runState = s.runState := rfl
@[simp] theorem State.setPc_fault (s : State) (v : Word) : (s.setPc v).fault = s.fault := rfl
@[simp] theorem State.setPc_pending (s : State) (v : Word) : (s.setPc v).pending = s.pending := rfl
@[simp] theorem State.setPc_trace (s : State) (v : Word) : (s.setPc v).trace = s.trace := rfl
@[simp] theorem State.setPc_reg (s : State) (v : Word) (q : Reg) : (s.setPc v).reg q = s.reg q := rfl
@[simp] theorem State.setPc_readByte (s : State) (v : Word) (a : Nat) : (s.setPc v).readByte a = s.readByte a := rfl
@[simp] theorem State.setPc_flag (s : State) (v : Word) (g : Flag) : (s.setPc v).flag g = s.flag g := rfl

/-! ## advance -/

@[simp] theorem State.advance_regs (s : State) : (s.advance).regs = s.regs := rfl
@[simp] theorem State.advance_pc (s : State) : (s.advance).pc = (s.pc + 4#32) &&& 0xFFFFFFFC#32 := rfl
@[simp] theorem State.advance_sr (s : State) : (s.advance).sr = s.sr := rfl
@[simp] theorem State.advance_iif (s : State) : (s.advance).iif = s.iif := rfl
@[simp] theorem State.advance_mem (s : State) : (s.advance).mem = s.mem := rfl
@[simp] theorem State.advance_runState (s : State) : (s.advance).runState = s.runState := rfl
@[simp] theorem State.advance_fault (s : State) : (s.advance).fault = s.fault := rfl
@[simp] theorem State.advance_pending (s : State) : (s.advance).pending = s.pending := rfl
@[simp] theorem State.advance_trace (s : State) : (s.advance).trace = s.trace := rfl
@[simp] theorem State.advance_reg (s : State) (q : Reg) : (s.advance).reg q = s.reg q := rfl
@[simp] theorem State.advance_readByte (s : State) (a : Nat) : (s.advance).readByte a = s.readByte a := rfl
@[simp] theorem State.advance_flag (s : State) (g : Flag) : (s.advance).flag g = s.flag g := rfl

/-! ## setSr -/

@[simp] theorem State.setSr_regs (s : State) (v : Word) : (s.setSr v).regs = s.regs := rfl
@[simp] theorem State.setSr_pc (s : State) (v : Word) : (s.setSr v).pc = s.pc := rfl
@[simp] theorem State.setSr_sr (s : State) (v : Word) : (s.setSr v).sr = v := rfl
@[simp] theorem State.setSr_iif (s : State) (v : Word) : (s.setSr v).iif = s.iif := rfl
@[simp] theorem State.setSr_mem (s : State) (v : Word) : (s.setSr v).mem = s.mem := rfl
@[simp] theorem State.setSr_runState (s : State) (v : Word) : (s.setSr v).runState = s.runState := rfl
@[simp] theorem State.setSr_fault (s : State) (v : Word) : (s.setSr v).fault = s.fault := rfl
@[simp] theorem State.setSr_pending (s : State) (v : Word) : (s.setSr v).pending = s.pending := rfl
@[simp] theorem State.setSr_trace (s : State) (v : Word) : (s.setSr v).trace = s.trace := rfl
@[simp] theorem State.setSr_reg (s : State) (v : Word) (q : Reg) : (s.setSr v).reg q = s.reg q := rfl
@[simp] theorem State.setSr_readByte (s : State) (v : Word) (a : Nat) : (s.setSr v).readByte a = s.readByte a := rfl

/-! ## setFlag -/

@[simp] theorem State.setFlag_regs (s : State) (f : Flag) (b : Bool) : (s.setFlag f b).regs = s.regs := rfl
@[simp] theorem State.setFlag_pc (s : State) (f : Flag) (b : Bool) : (s.setFlag f b).pc = s.pc := rfl
@[simp] theorem State.setFlag_sr (s : State) (f : Flag) (b : Bool) : (s.setFlag f b).sr = Machine.setFlag s.sr f b := rfl
@[simp] theorem State.setFlag_iif (s : State) (f : Flag) (b : Bool) : (s.setFlag f b).iif = s.iif := rfl
@[simp] theorem State.setFlag_mem (s : State) (f : Flag) (b : Bool) : (s.setFlag f b).mem = s.mem := rfl
@[simp] theorem State.setFlag_runState (s : State) (f : Flag) (b : Bool) : (s.setFlag f b).runState = s.runState := rfl
@[simp] theorem State.setFlag_fault (s : State) (f : Flag) (b : Bool) : (s.setFlag f b).fault = s.fault := rfl
@[simp] theorem State.setFlag_pending (s : State) (f : Flag) (b : Bool) : (s.setFlag f b).pending = s.pending := rfl
@[simp] theorem State.setFlag_trace (s : State) (f : Flag) (b : Bool) : (s.setFlag f b).trace = s.trace := rfl
@[simp] theorem State.setFlag_reg (s : State) (f : Flag) (b : Bool) (q : Reg) : (s.setFlag f b).reg q = s.reg q := rfl
@[simp] theorem State.setFlag_readByte (s : State) (f : Flag) (b : Bool) (a : Nat) : (s.setFlag f b).readByte a = s.readByte a := rfl

/-! ## setAluFlags -/

@[simp] theorem State.setAluFlags_regs (s : State) (r : AluResult) : (s.setAluFlags r).regs = s.regs := rfl
@[simp] theorem State.setAluFlags_pc (s : State) (r : AluResult) : (s.setAluFlags r).pc = s.pc := rfl
@[simp] theorem State.setAluFlags_sr (s : State) (r : AluResult) : (s.setAluFlags r).sr = setNCVZ s.sr r.res.msb r.c r.v (r.res == 0#32) := rfl
@[simp] theorem State.setAluFlags_iif (s : State) (r : AluResult) : (s.setAluFlags r).iif = s.iif := rfl
@[simp] theorem State.setAluFlags_mem (s : State) (r : AluResult) : (s.setAluFlags r).mem = s.mem := rfl
@[simp] theorem State.setAluFlags_runState (s : State) (r : AluResult) : (s.setAluFlags r).runState = s.runState := rfl
@[simp] theorem State.setAluFlags_fault (s : State) (r : AluResult) : (s.setAluFlags r).fault = s.fault := rfl
@[simp] theorem State.setAluFlags_pending (s : State) (r : AluResult) : (s.setAluFlags r).pending = s.pending := rfl
@[simp] theorem State.setAluFlags_trace (s : State) (r : AluResult) : (s.setAluFlags r).trace = s.trace := rfl
@[simp] theorem State.setAluFlags_reg (s : State) (r : AluResult) (q : Reg) : (s.setAluFlags r).reg q = s.reg q := rfl
@[simp] theorem State.setAluFlags_readByte (s : State) (r : AluResult) (a : Nat) : (s.setAluFlags r).readByte a = s.readByte a := rfl

/-! ## setIif -/

@[simp] theorem State.setIif_regs (s : State) (b : Bool) : (s.setIif b).regs = s.regs := rfl
@[simp] theorem State.setIif_pc (s : State) (b : Bool) : (s.setIif b).pc = s.pc := rfl
@[simp] theorem State.setIif_sr (s : State) (b : Bool) : (s.setIif b).sr = s.sr := rfl
@[simp] theorem State.setIif_iif (s : State) (b : Bool) : (s.setIif b).iif = b := rfl
@[simp] theorem State.setIif_mem (s : State) (b : Bool) : (s.setIif b).mem = s.mem := rfl
@[simp] theorem State.setIif_runState (s : State) (b : Bool) : (s.setIif b).runState = s.runState := rfl
@[simp] theorem State.setIif_fault (s : State) (b : Bool) : (s.setIif b).fault = s.fault := rfl
@[simp] theorem State.setIif_pending (s : State) (b : Bool) : (s.setIif b).pending = s.pending := rfl
@[simp] theorem State.setIif_trace (s : State) (b : Bool) : (s.setIif b).trace = s.trace := rfl
@[simp] theorem State.setIif_reg (s : State) (b : Bool) (q : Reg) : (s.setIif b).reg q = s.reg q := rfl
@[simp] theorem State.setIif_readByte (s : State) (b : Bool) (a : Nat) : (s.setIif b).readByte a = s.readByte a := rfl
@[simp] theorem State.setIif_flag (s : State) (b : Bool) (g : Flag) : (s.setIif b).flag g = s.flag g := rfl

/-! ## setMem -/

@[simp] theorem State.setMem_regs (s : State) (m : Memory) : (s.setMem m).regs = s.regs := rfl
@[simp] theorem State.setMem_pc (s : State) (m : Memory) : (s.setMem m).pc = s.pc := rfl
@[simp] theorem State.setMem_sr (s : State) (m : Memory) : (s.setMem m).sr = s.sr := rfl
@[simp] theorem State.setMem_iif (s : State) (m : Memory) : (s.setMem m).iif = s.iif := rfl
@[simp] theorem State.setMem_mem (s : State) (m : Memory) : (s.setMem m).mem = m := rfl
@[simp] theorem State.setMem_runState (s : State) (m : Memory) : (s.setMem m).runState = s.runState := rfl
@[simp] theorem State.setMem_fault (s : State) (m : Memory) : (s.setMem m).fault = s.fault := rfl
@[simp] theorem State.setMem_pending (s : State) (m : Memory) : (s.setMem m).pending = s.pending := rfl
@[simp] theorem State.setMem_trace (s : State) (m : Memory) : (s.setMem m).trace = s.trace := rfl
@[simp] theorem State.setMem_reg (s : State) (m : Memory) (q : Reg) : (s.setMem m).reg q = s.reg q := rfl
@[simp] theorem State.setMem_flag (s : State) (m : Memory) (g : Flag) : (s.setMem m).flag g = s.flag g := rfl

/-! ## setRunState -/

@[simp] theorem State.setRunState_regs (s : State) (x : RunState) : (s.setRunState x).regs = s.regs := rfl
@[simp] theorem State.setRunState_pc (s : State) (x : RunState) : (s.setRunState x).pc = s.pc := rfl
@[simp] theorem State.setRunState_sr (s : State) (x : RunState) : (s.setRunState x).sr = s.sr := rfl
@[simp] theorem State.setRunState_iif (s : State) (x : RunState) : (s.setRunState x).iif = s.iif := rfl
@[simp] theorem State.setRunState_mem (s : State) (x : RunState) : (s.setRunState x).mem = s.mem := rfl
@[simp] theorem State.setRunState_runState (s : State) (x : RunState) : (s.setRunState x).runState = x := rfl
@[simp] theorem State.setRunState_fault (s : State) (x : RunState) : (s.setRunState x).fault = s.fault := rfl
@[simp] theorem State.setRunState_pending (s : State) (x : RunState) : (s.setRunState x).pending = s.pending := rfl
@[simp] theorem State.setRunState_trace (s : State) (x : RunState) : (s.setRunState x).trace = s.trace := rfl
@[simp] theorem State.setRunState_reg (s : State) (x : RunState) (q : Reg) : (s.setRunState x).reg q = s.reg q := rfl
@[simp] theorem State.setRunState_readByte (s : State) (x : RunState) (a : Nat) : (s.setRunState x).readByte a = s.readByte a := rfl
@[simp] theorem State.setRunState_flag (s : State) (x : RunState) (g : Flag) : (s.setRunState x).flag g = s.flag g := rfl

/-! ## emit -/

@[simp] theorem State.emit_regs (s : State) (e : Event) : (s.emit e).regs = s.regs := rfl
@[simp] theorem State.emit_pc (s : State) (e : Event) : (s.emit e).pc = s.pc := rfl
@[simp] theorem State.emit_sr (s : State) (e : Event) : (s.emit e).sr = s.sr := rfl
@[simp] theorem State.emit_iif (s : State) (e : Event) : (s.emit e).iif = s.iif := rfl
@[simp] theorem State.emit_mem (s : State) (e : Event) : (s.emit e).mem = s.mem := rfl
@[simp] theorem State.emit_runState (s : State) (e : Event) : (s.emit e).runState = s.runState := rfl
@[simp] theorem State.emit_fault (s : State) (e : Event) : (s.emit e).fault = s.fault := rfl
@[simp] theorem State.emit_pending (s : State) (e : Event) : (s.emit e).pending = s.pending := rfl
@[simp] theorem State.emit_trace (s : State) (e : Event) : (s.emit e).trace = e :: s.trace := rfl
@[simp] theorem State.emit_reg (s : State) (e : Event) (q : Reg) : (s.emit e).reg q = s.reg q := rfl
@[simp] theorem State.emit_readByte (s : State) (e : Event) (a : Nat) : (s.emit e).readByte a = s.readByte a := rfl
@[simp] theorem State.emit_flag (s : State) (e : Event) (g : Flag) : (s.emit e).flag g = s.flag g := rfl

/-! ## halt -/

@[simp] theorem State.halt_regs (s : State) : (s.halt).regs = s.regs := rfl
@[simp] theorem State.halt_pc (s : State) : (s.halt).pc = s.pc := rfl
@[simp] theorem State.halt_sr (s : State) : (s.halt).sr = s.sr := rfl
@[simp] theorem State.halt_iif (s : State) : (s.halt).iif = s.iif := rfl
@[simp] theorem State.halt_mem (s : State) : (s.halt).mem = s.mem := rfl
@[simp] theorem State.halt_runState (s : State) : (s.halt).runState = .stopped := rfl
@[simp] theorem State.halt_fault (s : State) : (s.halt).fault = s.fault := rfl
@[simp] theorem State.halt_pending (s : State) : (s.halt).pending = s.pending := rfl
@[simp] theorem State.halt_trace (s : State) : (s.halt).trace = .onStop :: s.trace := rfl
@[simp] theorem State.halt_reg (s : State) (q : Reg) : (s.halt).reg q = s.reg q := rfl
@[simp] theorem State.halt_readByte (s : State) (a : Nat) : (s.halt).readByte a = s.readByte a := rfl
@[simp] theorem State.halt_flag (s : State) (g : Flag) : (s.halt).flag g = s.flag g := rfl

/-! ## raise -/

@[simp] theorem State.raise_regs (s : State) (f : Fault) : (s.raise f).regs = s.regs := rfl
@[simp] theorem State.raise_pc (s : State) (f : Fault) : (s.raise f).pc = s.pc := rfl
@[simp] theorem State.raise_sr (s : State) (f : Fault) : (s.raise f).sr = s.sr := rfl
@[simp] theorem State.raise_iif (s : State) (f : Fault) : (s.raise f).iif = s.iif := rfl
@[simp] theorem State.raise_mem (s : State) (f : Fault) : (s.raise f).mem = s.mem := rfl
@[simp] theorem State.raise_runState (s : State) (f : Fault) : (s.raise f).runState = .stopped := rfl
@[simp] theorem State.raise_fault (s : State) (f : Fault) : (s.raise f).fault = some f := rfl
@[simp] theorem State.raise_pending (s : State) (f : Fault) : (s.raise f).pending = s.pending := rfl
@[simp] theorem State.raise_trace (s : State) (f : Fault) : (s.raise f).trace = .onStop :: s.trace := rfl
@[simp] theorem State.raise_reg (s : State) (f : Fault) (q : Reg) : (s.raise f).reg q = s.reg q := rfl
@[simp] theorem State.raise_readByte (s : State) (f : Fault) (a : Nat) : (s.raise f).readByte a = s.readByte a := rfl
@[simp] theorem State.raise_flag (s : State) (f : Fault) (g : Flag) : (s.raise f).flag g = s.flag g := rfl

/-! ## dropEvent -/

@[simp] theorem State.dropEvent_regs (s : State) : (s.dropEvent).regs = s.regs := rfl
@[simp] theorem State.dropEvent_pc (s : State) : (s.dropEvent).pc = s.pc := rfl
@[simp] theorem State.dropEvent_sr (s : State) : (s.dropEvent).sr = s.sr := rfl
@[simp] theorem State.dropEvent_iif (s : State) : (s.dropEvent).iif = s.iif := rfl
@[simp] theorem State.dropEvent_mem (s : State) : (s.dropEvent).mem = s.mem := rfl
@[simp] theorem State.dropEvent_runState (s : State) : (s.dropEvent).runState = s.runState := rfl
@[simp] theorem State.dropEvent_fault (s : State) : (s.dropEvent).fault = s.fault := rfl
@[simp] theorem State.dropEvent_pending (s : State) : (s.dropEvent).pending = s.pending.tail := rfl
@[simp] theorem State.dropEvent_trace (s : State) : (s.dropEvent).trace = s.trace := rfl
@[simp] theorem State.dropEvent_reg (s : State) (q : Reg) : (s.dropEvent).reg q = s.reg q := rfl
@[simp] theorem State.dropEvent_readByte (s : State) (a : Nat) : (s.dropEvent).readByte a = s.readByte a := rfl
@[simp] theorem State.dropEvent_flag (s : State) (g : Flag) : (s.dropEvent).flag g = s.flag g := rfl

end Sys2Proof.Machine
end

