-- ==== Sys2Proof/Laws/Ops.lean ====
section
/-! SUPPORT. What each shared operation can do, said once: registers, accesses, the stack, the fault, a conditional instruction. -/

namespace Sys2Proof.Machine

/-! ## Registers -/

theorem Regs.get_set (x : Regs) (r q : Reg) (v : Word) : (x.set r v).get q = if q = r then v else x.get q := by
  cases r <;> cases q <;> rfl

/-- A register file is its eight registers. -/
theorem Regs.ext_get {x y : Regs} (h : ∀ r, x.get r = y.get r) : x = y := by
  cases x; cases y
  simp only [Regs.mk.injEq]
  exact ⟨h .r0, h .r1, h .r2, h .r3, h .r4, h .r5, h .r6, h .r7⟩

theorem State.setReg_reg (s : State) (r q : Reg) (v : Word) : (s.setReg r v).reg q = if q = r then v else s.reg q :=
  Regs.get_set s.regs r q v

@[simp] theorem State.setReg_reg_self (s : State) (r : Reg) (v : Word) : (s.setReg r v).reg r = v := by
  simp [State.setReg_reg]

@[simp] theorem State.setReg_reg_ne (s : State) (r q : Reg) (v : Word) (h : q ≠ r) : (s.setReg r v).reg q = s.reg q := by
  simp [State.setReg_reg, h]

/-! ## Accesses -/

theorem inBounds_iff (a : Word) (w : Width) : inBounds a w = true ↔ a.toNat + w.bytes ≤ Config.memSize := by
  simp [inBounds]

/-- A read answers the value of its bytes when they lie in memory, and otherwise the fault AddressOutOfBounds. -/
theorem State.memRead_cases (s : State) (access : Access) (a : Word) (w : Width) :
    (a.toNat + w.bytes ≤ Config.memSize ∧ s.memRead access a w = .ok (s.mem.readN a.toNat w)) ∨
    (Config.memSize < a.toNat + w.bytes ∧ s.memRead access a w = .error (.addressOutOfBounds s.pc a access w)) := by
  by_cases h : a.toNat + w.bytes ≤ Config.memSize
  · exact .inl ⟨h, by simp [State.memRead, inBounds, h]⟩
  · exact .inr ⟨by omega, by simp [State.memRead, inBounds, h]⟩

/-- A store answers the state with its bytes written when they lie in memory, and otherwise the fault AddressOutOfBounds. -/
theorem State.memWrite_cases (s : State) (a : Word) (w : Width) (v : Word) :
    (a.toNat + w.bytes ≤ Config.memSize ∧ s.memWrite a w v = .ok (s.setMem (s.mem.writeN a.toNat w v))) ∨
    (Config.memSize < a.toNat + w.bytes ∧ s.memWrite a w v = .error (.addressOutOfBounds s.pc a .write w)) := by
  by_cases h : a.toNat + w.bytes ≤ Config.memSize
  · exact .inl ⟨h, by simp [State.memWrite, inBounds, h]⟩
  · exact .inr ⟨by omega, by simp [State.memWrite, inBounds, h]⟩

/-- The byte of memory at an address, after memory is replaced. -/
@[simp] theorem State.setMem_readByte (s : State) (m : Memory) (a : Nat) : (s.setMem m).readByte a = m.read a := rfl

/-! ## The stack -/

/-- A push decrements r7 and stores the word at it, or is the fault AddressOutOfBounds at the slot. -/
theorem State.pushWord_cases (s : State) (v : State → Word) :
    let a := (s.reg .r7 - 4#32) &&& 0xFFFFFFFC#32
    let s1 := s.setReg .r7 (s.reg .r7 - 4#32)
    (a.toNat + 4 ≤ Config.memSize ∧ s.pushWord v = .ok (s1.setMem (s.mem.writeN a.toNat .word (v s1)))) ∨
    (Config.memSize < a.toNat + 4 ∧ s.pushWord v = .error (.addressOutOfBounds s.pc a .write .word)) := by
  have h := (s.setReg .r7 (s.reg .r7 - 4#32)).memWrite_cases ((s.reg .r7 - 4#32) &&& 0xFFFFFFFC#32) .word
    (v (s.setReg .r7 (s.reg .r7 - 4#32)))
  simpa [State.pushWord, Width.bytes] using h

/-- The word at r7, or the fault AddressOutOfBounds at the slot. -/
theorem State.stackTop_cases (s : State) :
    let a := s.reg .r7 &&& 0xFFFFFFFC#32
    (a.toNat + 4 ≤ Config.memSize ∧ s.stackTop = .ok (s.mem.readN a.toNat .word)) ∨
    (Config.memSize < a.toNat + 4 ∧ s.stackTop = .error (.addressOutOfBounds s.pc a .read .word)) :=
  s.memRead_cases .read (s.reg .r7 &&& 0xFFFFFFFC#32) .word

/-- The return pops the word at r7 and goes 4 past it, or is the fault AddressOutOfBounds at the slot. -/
theorem State.returnPop_cases (s : State) :
    let a := s.reg .r7 &&& 0xFFFFFFFC#32
    (a.toNat + 4 ≤ Config.memSize ∧ s.returnPop =
      .ok ((s.setReg .r7 (s.reg .r7 + 4#32)).setPc ((s.mem.readN a.toNat .word &&& 0xFFFFFFFC#32) + 4#32))) ∨
    (Config.memSize < a.toNat + 4 ∧ s.returnPop = .error (.addressOutOfBounds s.pc a .read .word)) := by
  rcases s.stackTop_cases with ⟨h, e⟩ | ⟨h, e⟩
  · exact .inl ⟨h, by simp [State.returnPop, e]⟩
  · exact .inr ⟨h, by simp [State.returnPop, e]⟩

/-! ## Loads and stores -/

/-- A load writes its register from memory, or is the fault AddressOutOfBounds at the aligned address. -/
theorem State.loadReg_cases (s : State) (w : Width) (addr : Addr) (rd : Reg) :
    let a := align w (s.ea addr)
    (a.toNat + w.bytes ≤ Config.memSize ∧
      s.loadReg w addr rd = .ok (s.setReg rd (s.mem.readN a.toNat w)).advance) ∨
    (Config.memSize < a.toNat + w.bytes ∧ s.loadReg w addr rd = .error (.addressOutOfBounds s.pc a .read w)) := by
  rcases s.memRead_cases .read (align w (s.ea addr)) w with ⟨h, e⟩ | ⟨h, e⟩
  · exact .inl ⟨h, by simp [State.loadReg, e]⟩
  · exact .inr ⟨h, by simp [State.loadReg, e]⟩

/-- A store writes memory from its register, or is the fault AddressOutOfBounds at the aligned address. -/
theorem State.storeReg_cases (s : State) (w : Width) (addr : Addr) (rd : Reg) :
    let a := align w (s.ea addr)
    (a.toNat + w.bytes ≤ Config.memSize ∧
      s.storeReg w addr rd = .ok (s.setMem (s.mem.writeN a.toNat w (s.reg rd))).advance) ∨
    (Config.memSize < a.toNat + w.bytes ∧ s.storeReg w addr rd = .error (.addressOutOfBounds s.pc a .write w)) := by
  rcases s.memWrite_cases (align w (s.ea addr)) w (s.reg rd) with ⟨h, e⟩ | ⟨h, e⟩
  · exact .inl ⟨h, by simp [State.storeReg, e]⟩
  · exact .inr ⟨h, by simp [State.storeReg, e]⟩

/-- The aligned address is a multiple of the access size, at or just below the address. -/
theorem align_toNat (w : Width) (a : Word) : (align w a).toNat = a.toNat / w.bytes * w.bytes := by
  cases w
  · simp [align, Width.bytes]
  · have : a &&& 0xFFFFFFFE#32 = (a >>> 1) <<< 1 := by
      apply BitVec.eq_of_getLsbD_eq
      intro k hk
      have hm : (0xFFFFFFFE#32).getLsbD k = decide (1 ≤ k) := by
        have : ∀ j : Fin 32, (0xFFFFFFFE#32).getLsbD j = decide (1 ≤ j.1) := by decide
        exact this ⟨k, hk⟩
      simp only [BitVec.getLsbD_and, hm, BitVec.getLsbD_shiftLeft, BitVec.getLsbD_ushiftRight]
      by_cases h : 1 ≤ k
      · simp [h, hk, show 1 + (k - 1) = k by omega, show ¬ k < 1 by omega]
      · simp [h, show k < 1 by omega]
    simp only [align, this, Width.bytes, BitVec.toNat_shiftLeft, BitVec.toNat_ushiftRight, Nat.shiftLeft_eq,
      Nat.shiftRight_eq_div_pow]
    have := a.isLt
    omega
  · have : a &&& 0xFFFFFFFC#32 = (a >>> 2) <<< 2 := by
      apply BitVec.eq_of_getLsbD_eq
      intro k hk
      have hm : (0xFFFFFFFC#32).getLsbD k = decide (2 ≤ k) := by
        have : ∀ j : Fin 32, (0xFFFFFFFC#32).getLsbD j = decide (2 ≤ j.1) := by decide
        exact this ⟨k, hk⟩
      simp only [BitVec.getLsbD_and, hm, BitVec.getLsbD_shiftLeft, BitVec.getLsbD_ushiftRight]
      by_cases h : 2 ≤ k
      · simp [h, hk, show 2 + (k - 2) = k by omega, show ¬ k < 2 by omega]
      · simp [h, show k < 2 by omega]
    simp only [align, this, Width.bytes, BitVec.toNat_shiftLeft, BitVec.toNat_ushiftRight, Nat.shiftLeft_eq,
      Nat.shiftRight_eq_div_pow]
    have := a.isLt
    omega

/-! ## An ALU instruction's writes -/

/-- What an ALU instruction with a destination leaves in its destination, the flags and the pc. -/
theorem State.aluWrite_writes (s : State) (rd : Reg) (r : AluResult) :
    (s.aluWrite rd r).reg rd = r.res ∧ (s.aluWrite rd r).flag .n = r.res.getLsbD 31 ∧
    (s.aluWrite rd r).flag .z = decide (r.res = 0#32) ∧ (s.aluWrite rd r).flag .c = r.c ∧
    (s.aluWrite rd r).flag .v = r.v ∧ (s.aluWrite rd r).pc = (s.pc + 4#32) &&& 0xFFFFFFFC#32 := by
  refine ⟨s.setReg_reg_self rd r.res, ?_, ?_, ?_, ?_, rfl⟩
  · simp [State.aluWrite, State.flag, BitVec.msb_eq_getLsbD_last]
  · simp only [State.aluWrite, State.flag, State.advance_sr, State.setAluFlags_sr, getFlag_setNCVZ_z]
    rw [Bool.eq_iff_iff]
    simp
  · simp [State.aluWrite, State.flag]
  · simp [State.aluWrite, State.flag]

/-- No other register and no other bit of sr is written. -/
theorem State.aluWrite_reg_ne (s : State) (rd q : Reg) (r : AluResult) (h : q ≠ rd) :
    (s.aluWrite rd r).reg q = s.reg q := by
  simp [State.aluWrite, h]

theorem State.aluWrite_sr_ge (s : State) (rd : Reg) (r : AluResult) (k : Nat) (h : 4 ≤ k) :
    (s.aluWrite rd r).sr.getLsbD k = s.sr.getLsbD k := by
  simp [State.aluWrite, getLsbD_setNCVZ, show k ≠ 0 by omega, show k ≠ 1 by omega, show k ≠ 2 by omega,
    show k ≠ 3 by omega]

@[simp] theorem State.aluWrite_mem (s : State) (rd : Reg) (r : AluResult) : (s.aluWrite rd r).mem = s.mem := rfl

/-! ## Ends of an instruction -/

@[simp] theorem State.settle_ok (s t : State) : s.settle (.ok t) = .next t := rfl

@[simp] theorem State.settle_error (s : State) (f : Fault) : s.settle (.error f) = .next (s.raise f) := rfl

theorem State.whenHolds_taken {s : State} {c : Cond} (r : Except Fault State) (h : condHolds c s.sr = true) :
    s.whenHolds c r = s.settle r := by
  simp [State.whenHolds, h]

theorem State.whenHolds_untaken {s : State} {c : Cond} (r : Except Fault State) (h : condHolds c s.sr = false) :
    s.whenHolds c r = .next s.advance := by
  simp [State.whenHolds, h]

/-- An instruction that ends through `settle` answers its own next state, or the state of the fault it takes. -/
theorem State.settle_cases {s t : State} {r : Except Fault State} (h : s.settle r = .next t) :
    r = .ok t ∨ ∃ f, r = .error f ∧ t = s.raise f := by
  cases r with
  | ok u => simp only [State.settle, Host.Outcome.next.injEq] at h; exact .inl (by rw [h])
  | error f => simp only [State.settle, Host.Outcome.next.injEq] at h; exact .inr ⟨f, rfl, h.symm⟩

/-- A conditional instruction either only advances, or answers what its effect does. -/
theorem State.whenHolds_cases {s t : State} {c : Cond} {r : Except Fault State} (h : s.whenHolds c r = .next t) :
    (condHolds c s.sr = false ∧ t = s.advance) ∨
    (condHolds c s.sr = true ∧ (r = .ok t ∨ ∃ f, r = .error f ∧ t = s.raise f)) := by
  cases hc : condHolds c s.sr with
  | false => simp [State.whenHolds, hc] at h; exact .inl ⟨rfl, h.symm⟩
  | true => simp [State.whenHolds, hc] at h; exact .inr ⟨rfl, State.settle_cases h⟩

end Sys2Proof.Machine
end

