-- ==== Sys2Proof/Laws/Step.lean ====
section
/-! SUPPORT. What a step and a cycle can do, said once. -/

namespace Sys2Proof.Machine

/-- Every instruction answers a next state. -/
theorem exec_answers (i : Instr) (s : State) : ∃ t, exec i s = .next t := by
  have hs : ∀ r, ∃ t, s.settle r = .next t := fun r => by cases r <;> exact ⟨_, rfl⟩
  have hw : ∀ c r, ∃ t, s.whenHolds c r = .next t := fun c r => by
    unfold State.whenHolds
    split
    · exact hs r
    · exact ⟨_, rfl⟩
  cases i <;> first | exact hs _ | exact hw _ _ | exact ⟨_, rfl⟩

/-- What a step does in a state that runs a cycle, for any engine: that cycle, with the host interaction taken. -/
theorem advanceHost_of_runsCycle (e : Engine) {s : State} (h : s.RunsCycle) : s.advanceHost e = s.dropEvent.cycle e := by
  rcases h with ⟨h, hr⟩ | ⟨h, hr, hf⟩
  · simp only [State.advanceHost, h, State.take, State.onTick, State.dropEvent_runState, hr]
  · simp only [State.advanceHost, h, State.take, State.onStep, State.dropEvent_runState, State.dropEvent_fault, hf]
    cases hs : s.runState <;> simp_all

theorem step_of_runsCycle {s : State} (h : s.RunsCycle) : step s = s.dropEvent.cycle engine :=
  advanceHost_of_runsCycle engine h

/-- The fetch inside memory answers the word at pc. -/
theorem State.fetch_ok {s : State} (h : s.pc.toNat + 4 ≤ Config.memSize) :
    s.fetch = .ok (s.mem.readN s.pc.toNat .word) := by
  rcases s.memRead_cases .fetch s.pc .word with ⟨_, e⟩ | ⟨hb, _⟩
  · exact e
  · rw [Width.bytes_word] at hb
    omega

/-- A cycle takes a fault of the fetch or the decode, or ends as the execution of the decoded instruction does. -/
theorem State.cycle_cases (e : Engine) (s : State) :
    (∃ f, s.cycle e = .next ((s.emit .beforeCycle).raise f)) ∨
    (∃ w i, (s.emit .beforeCycle).fetch = .ok w ∧ e.decode w = .ok i ∧
      s.cycle e = afterExecute (e.exec i ((s.emit .beforeCycle).emit (.beforeExecute i)))) := by
  cases hf : (s.emit .beforeCycle).fetch with
  | error f => exact .inl ⟨f, by simp only [State.cycle, hf]⟩
  | ok w =>
    cases hd : e.decode w with
    | error d => exact .inl ⟨_, by simp only [State.cycle, hf, State.runWord, hd]; rfl⟩
    | ok i => exact .inr ⟨w, i, rfl, hd, by simp only [State.cycle, hf, State.runWord, hd, State.runInstr]⟩

/-- The end of a cycle keeps the instruction's next state, with after_cycle emitted unless a fault is recorded. -/
theorem afterExecute_next (t : State) :
    afterExecute (.next t) = .next (if t.fault.isNone then t.emit .afterCycle else t) := rfl

/-- Every cycle of an engine whose instructions all answer a next state answers one. -/
theorem State.cycle_answers {e : Engine} (he : ∀ i s, ∃ t, e.exec i s = .next t) (s : State) :
    ∃ t, s.cycle e = .next t := by
  rcases s.cycle_cases e with ⟨f, h⟩ | ⟨w, i, _, _, h⟩
  · exact ⟨_, h⟩
  · obtain ⟨u, hu⟩ := he i ((s.emit .beforeCycle).emit (.beforeExecute i))
    exact ⟨_, h.trans (by rw [hu, afterExecute_next])⟩

end Sys2Proof.Machine
end

