-- ==== Sys2Proof/Laws/Parametric.lean ====
section
/-! SUPPORT. The parametric core: its execution answers for every instruction, and at the default parameters it is `exec`. -/

namespace Sys2Proof.Machine

@[simp] theorem execWith_default (i : Instr) (s : State) : execWith defaultParams i s = exec i s := by cases i <;> rfl

@[simp] theorem engineWith_default : engineWith defaultParams = engine :=
  congrArg (Engine.mk decode) (funext fun i => funext fun s => execWith_default i s)

/-- Every instruction answers a next state, for every value of the parameters. -/
theorem execWith_answers (p : Config.Params) (i : Instr) (s : State) : ∃ t, execWith p i s = .next t := by
  have h := exec_answers i s
  cases i <;> first | exact h | exact ⟨_, rfl⟩

/-- A shift or rotate by a count below 32 is the spec's. -/
theorem shiftBy_narrow (op : Config.ShiftOp) (a : Word) {k : Nat} (h : k < 32) : shiftBy op a k = narrowShift op a k := by
  simp [shiftBy, h]

/-- V is 0 after every shift and rotate, by any count (R181). -/
@[simp] theorem shiftBy_v (op : Config.ShiftOp) (a : Word) (k : Nat) : (shiftBy op a k).v = false := by
  unfold shiftBy narrowShift
  split
  · cases op <;> rfl
  · rfl

/-- At the default the count is below 32, so a shift or rotate writes the spec's result: the free values never enter. -/
theorem State.shiftWrite_default (s : State) (op : Config.ShiftOp) (src1 : Reg) (src2 : RegImm) (dest : Reg) :
    s.shiftWrite shiftCountBits op src1 src2 dest =
      s.aluWrite dest (narrowShift op (s.reg src1) ((s.regImm src2).toNat % 32)) :=
  congrArg (s.aluWrite dest) (shiftBy_narrow op _ (Nat.mod_lt _ (by decide)))

/-! The instructions that read a parameter, at the default: their execution, in the operations of the spec. -/

theorem exec_shl (s : State) (src1 : Reg) (src2 : RegImm) (dest : Reg) : exec (.shl src1 src2 dest) s =
    .next (s.aluWrite dest (shlC (s.reg src1) ((s.regImm src2).toNat % 32))) :=
  congrArg Host.Outcome.next (s.shiftWrite_default .shl src1 src2 dest)

theorem exec_shr (s : State) (src1 : Reg) (src2 : RegImm) (dest : Reg) : exec (.shr src1 src2 dest) s =
    .next (s.aluWrite dest (shrC (s.reg src1) ((s.regImm src2).toNat % 32))) :=
  congrArg Host.Outcome.next (s.shiftWrite_default .shr src1 src2 dest)

theorem exec_ashr (s : State) (src1 : Reg) (src2 : RegImm) (dest : Reg) : exec (.ashr src1 src2 dest) s =
    .next (s.aluWrite dest (ashrC (s.reg src1) ((s.regImm src2).toNat % 32))) :=
  congrArg Host.Outcome.next (s.shiftWrite_default .ashr src1 src2 dest)

theorem exec_rotl (s : State) (src1 : Reg) (src2 : RegImm) (dest : Reg) : exec (.rotl src1 src2 dest) s =
    .next (s.aluWrite dest (rotlC (s.reg src1) ((s.regImm src2).toNat % 32))) :=
  congrArg Host.Outcome.next (s.shiftWrite_default .rotl src1 src2 dest)

theorem exec_rotr (s : State) (src1 : Reg) (src2 : RegImm) (dest : Reg) : exec (.rotr src1 src2 dest) s =
    .next (s.aluWrite dest (rotrC (s.reg src1) ((s.regImm src2).toNat % 32))) :=
  congrArg Host.Outcome.next (s.shiftWrite_default .rotr src1 src2 dest)

theorem exec_sub (s : State) (src1 : Reg) (src2 : RegImm) (dest : Reg) : exec (.sub src1 src2 dest) s =
    .next (s.aluWrite dest (subB .borrow (s.reg src1) (s.regImm src2) false)) := rfl

theorem exec_sbc (s : State) (src1 : Reg) (src2 : RegImm) (dest : Reg) : exec (.sbc src1 src2 dest) s =
    .next (s.aluWrite dest (subB .borrow (s.reg src1) (s.regImm src2) (s.flag .c))) := rfl

theorem exec_cmp (s : State) (src1 : Reg) (src2 : RegImm) : exec (.cmp src1 src2) s =
    .next (s.setAluFlags (subB .borrow (s.reg src1) (s.regImm src2) false)).advance := rfl

end Sys2Proof.Machine
end

