-- ==== Sys2Proof/Laws/PerInstr.lean ====
section
/-! SUPPORT. Statements per instruction. OpcodeField: whatever the code maps, bits 31..27 of an instruction's word are the code of its
mnemonic (R81, R83). -/

namespace Sys2Proof.Laws.OpcodeField

/-- Bits 31..27 of the instruction's word are its mnemonic's code, for every value of OPCODE_MAP and COND_MAP. -/
def Statement (i : Instr) : Prop := ∀ m : Config.CodeMaps, opField (encodeWith m i) = m.codeOf (opcodeOfInstr i)

theorem move (src : MoveSrc) (dest : MoveDst) : Statement (.move src dest) := by
  intro m
  cases src <;> exact opField_wordOf _ _ _ _ _

theorem or (src1 : Reg) (src2 : RegImm) (dest : Reg) : Statement (.or src1 src2 dest) := fun _ => opField_wordOf _ _ _ _ _

theorem and (src1 : Reg) (src2 : RegImm) (dest : Reg) : Statement (.and src1 src2 dest) := fun _ => opField_wordOf _ _ _ _ _

theorem xor (src1 : Reg) (src2 : RegImm) (dest : Reg) : Statement (.xor src1 src2 dest) := fun _ => opField_wordOf _ _ _ _ _

theorem add (src1 : Reg) (src2 : RegImm) (dest : Reg) : Statement (.add src1 src2 dest) := fun _ => opField_wordOf _ _ _ _ _

theorem adc (src1 : Reg) (src2 : RegImm) (dest : Reg) : Statement (.adc src1 src2 dest) := fun _ => opField_wordOf _ _ _ _ _

theorem sub (src1 : Reg) (src2 : RegImm) (dest : Reg) : Statement (.sub src1 src2 dest) := fun _ => opField_wordOf _ _ _ _ _

theorem sbc (src1 : Reg) (src2 : RegImm) (dest : Reg) : Statement (.sbc src1 src2 dest) := fun _ => opField_wordOf _ _ _ _ _

theorem rotl (src1 : Reg) (src2 : RegImm) (dest : Reg) : Statement (.rotl src1 src2 dest) := fun _ => opField_wordOf _ _ _ _ _

theorem rotr (src1 : Reg) (src2 : RegImm) (dest : Reg) : Statement (.rotr src1 src2 dest) := fun _ => opField_wordOf _ _ _ _ _

theorem shl (src1 : Reg) (src2 : RegImm) (dest : Reg) : Statement (.shl src1 src2 dest) := fun _ => opField_wordOf _ _ _ _ _

theorem shr (src1 : Reg) (src2 : RegImm) (dest : Reg) : Statement (.shr src1 src2 dest) := fun _ => opField_wordOf _ _ _ _ _

theorem ashr (src1 : Reg) (src2 : RegImm) (dest : Reg) : Statement (.ashr src1 src2 dest) := fun _ => opField_wordOf _ _ _ _ _

theorem cmp (src1 : Reg) (src2 : RegImm) : Statement (.cmp src1 src2) := fun _ => opField_wordOf _ _ _ _ _

theorem pop (reg : Reg) : Statement (.pop reg) := fun _ => opField_wordOf _ _ _ _ _

theorem push (reg : Reg) : Statement (.push reg) := fun _ => opField_wordOf _ _ _ _ _

theorem loadb (addr : Addr) (reg : Reg) : Statement (.loadb addr reg) := by
  intro m
  cases addr <;> exact opField_wordOf _ _ _ _ _

theorem storeb (addr : Addr) (reg : Reg) : Statement (.storeb addr reg) := by
  intro m
  cases addr <;> exact opField_wordOf _ _ _ _ _

theorem loadh (addr : Addr) (reg : Reg) : Statement (.loadh addr reg) := by
  intro m
  cases addr <;> exact opField_wordOf _ _ _ _ _

theorem storeh (addr : Addr) (reg : Reg) : Statement (.storeh addr reg) := by
  intro m
  cases addr <;> exact opField_wordOf _ _ _ _ _

theorem load (addr : Addr) (reg : Reg) : Statement (.load addr reg) := by
  intro m
  cases addr <;> exact opField_wordOf _ _ _ _ _

theorem store (addr : Addr) (reg : Reg) : Statement (.store addr reg) := by
  intro m
  cases addr <;> exact opField_wordOf _ _ _ _ _

theorem jp (cond : Cond) (dest : RegImm) : Statement (.jp cond dest) := fun _ => opField_condWord _ _ _ _

theorem call (cond : Cond) (dest : RegImm) : Statement (.call cond dest) := fun _ => opField_condWord _ _ _ _

theorem jr (cond : Cond) (off : Word) : Statement (.jr cond off) := fun _ => opField_condWord _ _ _ _

theorem ret (cond : Cond) : Statement (.ret cond) := fun _ => opField_condWord _ _ _ _

theorem reti (cond : Cond) : Statement (.reti cond) := fun _ => opField_condWord _ _ _ _

theorem retn (cond : Cond) : Statement (.retn cond) := fun _ => opField_condWord _ _ _ _

theorem halt (cond : Cond) : Statement (.halt cond) := fun _ => opField_condWord _ _ _ _

end Sys2Proof.Laws.OpcodeField
end

