-- ==== Sys2Proof/Tests/Slice0.lean ====
section
/-! SUPPORT. The model's own tests: the well-formedness checks, a word for every constructor written out field by field from
30_encoding.md, the vectors of 95_test_vectors.md (each test names its own), and for every statement that has hypotheses a
witness that meets them. Expected results come from the spec's files, not from the model. -/

namespace Sys2Proof.Tests

open Sys2Proof Sys2Proof.Machine

/-! ## Helpers -/

/-- The state of the conventions of 95_test_vectors.md: the reset state, running. -/
def start : State := { State.reset with runState := .running }

/-- The state with r1 and r2 set. -/
def two (a b : Word) : State := (start.setReg .r1 a).setReg .r2 b

/-- The state with four bytes of memory from a word's address on. -/
def cells (s : State) (a : Nat) (v : Word) : State := s.setMem (s.mem.writeN a .word v)

/-- The state with the pc placed. -/
def at_ (s : State) (pc : Word) : State := { s with pc := pc }

/-- The state with interactions of the host pending. -/
def sent (s : State) (es : List HostEvent) : State := { s with pending := es }

/-- A step's next state. -/
def next (s : State) : State :=
  match step s with
  | .next t => t
  | .fault _ => s
  | .refused _ => s

/-- One cycle of a word placed at pc. -/
def after (s : State) (w : Nat) : State := next (s.withFetchWord 32 w)

/-- Four bytes of memory, as a list. -/
def bytes4 (s : State) (a : Nat) : List Byte := [s.readByte a, s.readByte (a + 1), s.readByte (a + 2), s.readByte (a + 3)]

/-! ## Well-formedness (R82): an immediate that 20 bits cannot hold is refused, by every check -/

theorem test_wf_refuses_regImm :
    ([.or .r1 (.imm 0x80000) .r2, .and .r1 (.imm 0x80000) .r2, .xor .r1 (.imm 0x80000) .r2, .add .r1 (.imm 0x80000) .r2,
      .adc .r1 (.imm 0x80000) .r2, .sub .r1 (.imm 0x80000) .r2, .sbc .r1 (.imm 0x80000) .r2, .cmp .r1 (.imm 0x80000)].all
      fun i : Instr => !i.wf) = true := by decide

theorem test_wf_refuses_count :
    ([.rotl .r1 (.imm 0xFFF7FFFF) .r2, .rotr .r1 (.imm 0xFFF7FFFF) .r2, .shl .r1 (.imm 0xFFF7FFFF) .r2,
      .shr .r1 (.imm 0xFFF7FFFF) .r2, .ashr .r1 (.imm 0xFFF7FFFF) .r2].all fun i : Instr => !i.wf) = true := by decide

theorem test_wf_refuses_move :
    (Instr.move (.imm 0x80000) (.reg .r1)).wf = false ∧ (Instr.move (.imm 0x7FF00000) .sr).wf = false := by decide

theorem test_wf_refuses_abs :
    ([.load (.abs 0x80000) .r1, .loadh (.abs 0x80000) .r1, .loadb (.abs 0x80000) .r1, .store (.abs 0x80000) .r1,
      .storeh (.abs 0x80000) .r1, .storeb (.abs 0x80000) .r1].all fun i : Instr => !i.wf) = true := by decide

theorem test_wf_refuses_base :
    ([.load (.base .r2 0x80000) .r1, .loadh (.base .r2 0x80000) .r1, .loadb (.base .r2 0x80000) .r1,
      .store (.base .r2 0x80000) .r1, .storeh (.base .r2 0x80000) .r1, .storeb (.base .r2 0x80000) .r1].all
      fun i : Instr => !i.wf) = true := by decide

theorem test_wf_refuses_target :
    (Instr.jp .always (.imm 0x80000)).wf = false ∧ (Instr.call .always (.imm 0x80000)).wf = false ∧
    (Instr.jr .always 0x80000).wf = false := by decide

theorem test_wf_takes_both_ends :
    ([.add .r1 (.imm 0x7FFFF) .r2, .add .r1 (.imm 0xFFF80000) .r2, .move .sr .sr, .move (.imm 0xFFFFFFFF) .sr,
      .load (.abs 0xFFF80000) .r1, .jr .always 0x7FFFF, .cmp .r1 (.reg .r2), .ret .always].all fun i : Instr => i.wf) = true := by decide

/-! ## A word for every constructor, field by field (R81 to R95; codes of R83 and R121) -/

/-- R86: opcode, I, rd, 0, S, D, immediate -/
theorem test_decode_move :
    decode (0b00000#5 ++ 0b1#1 ++ 0b001#3 ++ 0b0#1 ++ 0b0#1 ++ 0b0#1 ++ 0xFFFFE#20) = .ok (.move (.imm 0xFFFFFFFE) (.reg .r1)) := by decide

/-- R86: D = 1 -/
theorem test_decode_move_sr :
    decode (0b00000#5 ++ 0b0#1 ++ 0b000#3 ++ 0b0#1 ++ 0b0#1 ++ 0b1#1 ++ 0b100#3 ++ 0#17) = .ok (.move (.reg .r4) .sr) := by decide

/-- R86: S = 1 wins over I = 1 -/
theorem test_decode_move_from_sr :
    decode (0b00000#5 ++ 0b1#1 ++ 0b101#3 ++ 0b0#1 ++ 0b1#1 ++ 0b0#1 ++ 0x00005#20) = .ok (.move .sr (.reg .r5)) := by decide

/-- R87: opcode, I, rd, rs1, rs2 -/
theorem test_decode_or :
    decode (0b00001#5 ++ 0b0#1 ++ 0b011#3 ++ 0b001#3 ++ 0b010#3 ++ 0#17) = .ok (.or .r1 (.reg .r2) .r3) := by decide

/-- R87: opcode, I = 1, rd, rs1, immediate -/
theorem test_decode_and :
    decode (0b00010#5 ++ 0b1#1 ++ 0b011#3 ++ 0b001#3 ++ 0x80000#20) = .ok (.and .r1 (.imm 0xFFF80000) .r3) := by decide

theorem test_decode_xor :
    decode (0b00011#5 ++ 0b0#1 ++ 0b110#3 ++ 0b101#3 ++ 0b111#3 ++ 0#17) = .ok (.xor .r5 (.reg .r7) .r6) := by decide

/-- S4 -/
theorem test_decode_add :
    decode (0b00100#5 ++ 0b0#1 ++ 0b011#3 ++ 0b001#3 ++ 0b010#3 ++ 0#17) = .ok (.add .r1 (.reg .r2) .r3) := by decide

theorem test_decode_adc :
    decode (0b00101#5 ++ 0b1#1 ++ 0b010#3 ++ 0b100#3 ++ 0x7FFFF#20) = .ok (.adc .r4 (.imm 0x7FFFF) .r2) := by decide

theorem test_decode_sub :
    decode (0b00110#5 ++ 0b0#1 ++ 0b000#3 ++ 0b001#3 ++ 0b110#3 ++ 0#17) = .ok (.sub .r1 (.reg .r6) .r0) := by decide

theorem test_decode_sbc :
    decode (0b00111#5 ++ 0b1#1 ++ 0b111#3 ++ 0b001#3 ++ 0x00001#20) = .ok (.sbc .r1 (.imm 1) .r7) := by decide

theorem test_decode_rotl :
    decode (0b01000#5 ++ 0b1#1 ++ 0b010#3 ++ 0b001#3 ++ 0x00004#20) = .ok (.rotl .r1 (.imm 4) .r2) := by decide

theorem test_decode_rotr :
    decode (0b01001#5 ++ 0b0#1 ++ 0b010#3 ++ 0b001#3 ++ 0b011#3 ++ 0#17) = .ok (.rotr .r1 (.reg .r3) .r2) := by decide

theorem test_decode_shl :
    decode (0b01010#5 ++ 0b1#1 ++ 0b010#3 ++ 0b001#3 ++ 0x00020#20) = .ok (.shl .r1 (.imm 32) .r2) := by decide

theorem test_decode_shr :
    decode (0b01011#5 ++ 0b1#1 ++ 0b010#3 ++ 0b001#3 ++ 0x0001F#20) = .ok (.shr .r1 (.imm 31) .r2) := by decide

theorem test_decode_ashr :
    decode (0b01100#5 ++ 0b0#1 ++ 0b100#3 ++ 0b101#3 ++ 0b110#3 ++ 0#17) = .ok (.ashr .r5 (.reg .r6) .r4) := by decide

/-- R88: bits 25..23 ignored -/
theorem test_decode_cmp : decode (0b01101#5 ++ 0b1#1 ++ 0b111#3 ++ 0b001#3 ++ 0x00005#20) = .ok (.cmp .r1 (.imm 5)) := by decide

/-- R93: opcode, ignored, rd, ignored -/
theorem test_decode_pop : decode (0b10000#5 ++ 0b0#1 ++ 0b010#3 ++ 0b111#3 ++ 0#20) = .ok (.pop .r2) := by decide

theorem test_decode_push : decode (0b10001#5 ++ 0b1#1 ++ 0b111#3 ++ 0b000#3 ++ 0xFFFFF#20) = .ok (.push .r7) := by decide

/-- R92: bit 26 = 0, the absolute form -/
theorem test_decode_loadb :
    decode (0b10010#5 ++ 0b0#1 ++ 0b001#3 ++ 0b000#3 ++ 0x00103#20) = .ok (.loadb (.abs 0x103) .r1) := by decide

/-- R92: bit 26 = 1, base and offset -/
theorem test_decode_storeb :
    decode (0b10011#5 ++ 0b1#1 ++ 0b001#3 ++ 0b010#3 ++ 0xFFFFF#20) = .ok (.storeb (.base .r2 0xFFFFFFFF) .r1) := by decide

theorem test_decode_loadh :
    decode (0b10100#5 ++ 0b1#1 ++ 0b011#3 ++ 0b111#3 ++ 0x00002#20) = .ok (.loadh (.base .r7 2) .r3) := by decide

theorem test_decode_storeh :
    decode (0b10101#5 ++ 0b0#1 ++ 0b001#3 ++ 0b101#3 ++ 0x00201#20) = .ok (.storeh (.abs 0x201) .r1) := by decide

theorem test_decode_load :
    decode (0b10110#5 ++ 0b1#1 ++ 0b001#3 ++ 0b010#3 ++ 0xFFFFC#20) = .ok (.load (.base .r2 0xFFFFFFFC) .r1) := by decide

theorem test_decode_store :
    decode (0b10111#5 ++ 0b0#1 ++ 0b110#3 ++ 0b000#3 ++ 0x80000#20) = .ok (.store (.abs 0xFFF80000) .r6) := by decide

/-- R89: opcode, I, condition, 00, immediate -/
theorem test_decode_jp :
    decode (0b11000#5 ++ 0b1#1 ++ 0b0111#4 ++ 0b00#2 ++ 0x00100#20) = .ok (.jp .zSet (.imm 0x100)) := by decide

theorem test_decode_call :
    decode (0b11001#5 ++ 0b0#1 ++ 0b1010#4 ++ 0b00#2 ++ 0b011#3 ++ 0#17) = .ok (.call .notCAndNotZ (.reg .r3)) := by decide

/-- R90 -/
theorem test_decode_jr :
    decode (0b11010#5 ++ 0b1#1 ++ 0b1000#4 ++ 0b00#2 ++ 0xFFFF8#20) = .ok (.jr .zClear 0xFFFFFFF8) := by decide

/-- R91: bit 0 = 0 is RET whatever bit 1 is -/
theorem test_decode_ret : decode (0b11011#5 ++ 0b0#1 ++ 0b0000#4 ++ 0#20 ++ 0b10#2) = .ok (.ret .always) := by decide

theorem test_decode_reti : decode (0b11011#5 ++ 0b0#1 ++ 0b0001#4 ++ 0#20 ++ 0b01#2) = .ok (.reti .nSet) := by decide

theorem test_decode_retn : decode (0b11011#5 ++ 0b0#1 ++ 0b1110#4 ++ 0#20 ++ 0b11#2) = .ok (.retn .nEqVAndNotZ) := by decide

/-- R94: bits 26 and 21..0 ignored -/
theorem test_decode_halt : decode (0b11111#5 ++ 0b1#1 ++ 0b1101#4 ++ 0x3FFFFF#22) = .ok (.halt .nEqV) := by decide

/-- The condition codes in the order of R121. -/
theorem test_decode_conditions :
    ([0xC4000000, 0xC4400000, 0xC4800000, 0xC4C00000, 0xC5000000, 0xC5400000, 0xC5800000, 0xC5C00000, 0xC6000000,
      0xC6400000, 0xC6800000, 0xC6C00000, 0xC7000000, 0xC7400000, 0xC7800000].map fun w => decodeTableWord 32 w) =
    [.always, .nSet, .nClear, .cSet, .cClear, .vSet, .vClear, .zSet, .zClear, .cOrZ, .notCAndNotZ, .nXorV, .nXorVOrZ, .nEqV,
      .nEqVAndNotZ].map fun t => some (.jp t (.imm 0)) := by decide

/-- 95_test_vectors.md section 2.9, the failures. -/
theorem test_decode_failures :
    ([0x70000000, 0x78000000, 0xE0000000, 0xE8000000, 0xF0000000, 0xC3C00000, 0xCBC00000, 0xD3C00000, 0xDBC00000,
      0xFBC00000].map fun w => decodeTableWord 32 w) = List.replicate 10 none := by decide

theorem test_decode_truncated : decodeBytes [0x00, 0x00, 0x94] = .error .truncatedInput := by decide

/-- R54: the word is little-endian. -/
theorem test_decode_rest : decodeBytes [0x00, 0x00, 0x94, 0x21, 0x55] = .ok (.add .r1 (.reg .r2) .r3, [0x55]) := by decide

/-- Words of programs P1, P2 and P5 (decision D19 for the ignored bits). -/
theorem test_encode :
    ([.move (.imm 0) (.reg .r1), .add .r1 (.reg .r2) .r1, .sub .r2 (.imm 1) .r2, .jr .zClear 0xFFFFFFF8, .store (.abs 0x100) .r1,
      .halt .always, .call .always (.imm 0x20), .push .r1, .pop .r1, .ret .always, .cmp .r1 (.reg .r2)].map encode) =
    [0x04800000, 0x20940000, 0x35200001, 0xD60FFFF8, 0xB8800100, 0xF8000000, 0xCC000020, 0x88800000, 0x80800000, 0xD8000000,
      0x68140000] := by decide

/-! ## The bit codec (S1) -/

theorem test_codec_unsigned :
    Codec.intToBinary 5 4 = [false, true, false, true] ∧
    Codec.binaryToInt [false, true, false, true] false = 5 := by decide

theorem test_codec_signed :
    Codec.binaryToInt [true, false, true, true] true = -5 ∧
    Codec.extend [true, false, true, true] 8 true = Codec.intToBinary 0xFB 8 ∧
    Codec.extend [true, false, true, true] 8 false = Codec.intToBinary 0x0B 8 := by decide

theorem test_codec_slice : Codec.bitSlice 0x21940000 27 31 = [false, false, true, false, false] := by decide

/-! ## One step of each instruction (95_test_vectors.md section 2) -/

/-- V7: r4 = 0x12345678 to sr -/
theorem test_move_low_byte :
    (after (start.setReg .r4 0x12345678) 0x00180000).sr = 0x78 ∧ (after (start.setReg .r4 0x12345678) 0x00180000).pc = 4 := by decide

/-- V10: S = 1 wins over I = 1 -/
theorem test_move_sr_first : (after (start.setSr 0x9) 0x04A00005).reg .r1 = 9 := by decide

/-- V46 -/
theorem test_or_clears_cv : (after (start.setSr 0x6) 0x0C900000).sr = 8 := by decide

/-- V45 -/
theorem test_or_bits :
    (after (two 0x80000000 1) 0x09940000).reg .r3 = 0x80000001 ∧ (after (two 0x80000000 1) 0x09940000).sr = 1 := by decide

/-- V43 -/
theorem test_and_extends : (after (two 0xFFFFFFFF 0) 0x15180000).reg .r2 = 0xFFF80000 := by decide

/-- V44 -/
theorem test_and_zero : (after (two 0xF0 0xF) 0x11940000).reg .r3 = 0 ∧ (after (two 0xF0 0xF) 0x11940000).sr = 8 := by decide

/-- V48 -/
theorem test_xor_not :
    (after (two 0xFF00FF00 0) 0x1D1FFFFF).reg .r2 = 0x00FF00FF ∧ (after (two 0xFF00FF00 0) 0x1D1FFFFF).sr = 0 := by decide

/-- V47 -/
theorem test_xor_self : (after (two 0xABCD 0) 0x18920000).reg .r1 = 0 ∧ (after (two 0xABCD 0) 0x18920000).sr = 8 := by decide

/-- V13 (S2) -/
theorem test_add_overflow :
    (after (two 0x7FFFFFFF 1) 0x21940000).reg .r3 = 0x80000000 ∧ (after (two 0x7FFFFFFF 1) 0x21940000).sr = 5 := by decide

/-- V15 -/
theorem test_add_carry_and_overflow : (after (two 0x80000000 0x80000000) 0x21940000).sr = 0xE := by decide

/-- V23 -/
theorem test_adc_carry_in :
    (after ((two 0x7FFFFFFF 0).setSr 2) 0x29940000).reg .r3 = 0x80000000 ∧ (after ((two 0x7FFFFFFF 0).setSr 2) 0x29940000).sr = 5 := by decide

/-- V22 -/
theorem test_adc_carry_out :
    (after ((two 0xFFFFFFFF 0).setSr 2) 0x29940000).reg .r3 = 0 ∧ (after ((two 0xFFFFFFFF 0).setSr 2) 0x29940000).sr = 0xA := by decide

/-- V27 -/
theorem test_sub_borrow : (after (two 3 5) 0x31940000).reg .r3 = 0xFFFFFFFE ∧ (after (two 3 5) 0x31940000).sr = 3 := by decide

/-- V28 -/
theorem test_sub_overflow :
    (after (two 0 0x80000000) 0x31940000).reg .r3 = 0x80000000 ∧ (after (two 0 0x80000000) 0x31940000).sr = 7 := by decide

/-- V33 -/
theorem test_sbc_borrow_in :
    (after (start.setSr 2) 0x39940000).reg .r3 = 0xFFFFFFFF ∧ (after (start.setSr 2) 0x39940000).sr = 3 := by decide

/-- V36 -/
theorem test_sbc_overflow :
    (after ((two 0x80000000 0).setSr 2) 0x39940000).reg .r3 = 0x7FFFFFFF ∧ (after ((two 0x80000000 0).setSr 2) 0x39940000).sr = 4 := by decide

/-- V64 -/
theorem test_rotl :
    (after (two 0x12345678 0) 0x45100004).reg .r2 = 0x23456781 ∧ (after (two 0x12345678 0) 0x45100004).sr = 2 := by decide

/-- V65: a count of 0 clears C -/
theorem test_rotl_zero :
    (after ((two 0x12345678 0).setSr 2) 0x45100000).reg .r2 = 0x12345678 ∧ (after ((two 0x12345678 0).setSr 2) 0x45100000).sr = 0 := by decide

/-- V66 -/
theorem test_rotr : (after (two 3 0) 0x4D100001).reg .r2 = 0x80000001 ∧ (after (two 3 0) 0x4D100001).sr = 3 := by decide

/-- V68 -/
theorem test_rotr_31 :
    (after (two 0x80000001 0) 0x4D1FFFFF).reg .r2 = 3 ∧ (after (two 0x80000001 0) 0x4D1FFFFF).sr = 0 := by decide

/-- V51 -/
theorem test_shl_31 : (after (two 3 0) 0x5510001F).reg .r2 = 0x80000000 ∧ (after (two 3 0) 0x5510001F).sr = 3 := by decide

/-- V53 -/
theorem test_shl_33 : (after (two 3 0x21) 0x51940000).reg .r3 = 6 ∧ (after (two 3 0x21) 0x51940000).sr = 0 := by decide

/-- V55 -/
theorem test_shr :
    (after (two 0x80000003 0) 0x5D100001).reg .r2 = 0x40000001 ∧ (after (two 0x80000003 0) 0x5D100001).sr = 2 := by decide

/-- V58 -/
theorem test_shr_minus_1 :
    (after (two 0xC0000000 0) 0x5D1FFFFF).reg .r2 = 1 ∧ (after (two 0xC0000000 0) 0x5D1FFFFF).sr = 2 := by decide

/-- V59 -/
theorem test_ashr :
    (after (two 0x80000010 0) 0x65100004).reg .r2 = 0xF8000001 ∧ (after (two 0x80000010 0) 0x65100004).sr = 1 := by decide

/-- V60 -/
theorem test_ashr_31 :
    (after (two 0x80000000 0) 0x6510001F).reg .r2 = 0xFFFFFFFF ∧ (after (two 0x80000000 0) 0x6510001F).sr = 1 := by decide

/-- V37 -/
theorem test_cmp_borrow : (after (two 3 0) 0x6C100005).reg .r1 = 3 ∧ (after (two 3 0) 0x6C100005).sr = 3 := by decide

/-- V40 -/
theorem test_cmp_overflow : (after (two 0x80000000 1) 0x68140000).sr = 4 := by decide

/-- V99 -/
theorem test_pop :
    (after (cells (start.setReg .r7 0xFFC) 0xFFC 5) 0x81000000).reg .r2 = 5 ∧ (after (cells (start.setReg .r7 0xFFC) 0xFFC 5) 0x81000000).reg .r7 = 0x1000 := by decide

/-- V101 -/
theorem test_pop_r7 : (after (cells (start.setReg .r7 0xFFC) 0xFFC 0xFFC) 0x83800000).reg .r7 = 0x1000 := by decide

/-- V100 -/
theorem test_push_r7 :
    (after (start.setReg .r7 0x1000) 0x8B800000).reg .r7 = 0xFFC ∧ bytes4 (after (start.setReg .r7 0x1000) 0x8B800000) 0xFFC = [0xFC, 0x0F, 0, 0] := by decide

/-- V102 -/
theorem test_push_unaligned :
    (after ((start.setReg .r7 0x1002).setReg .r1 9) 0x88800000).reg .r7 = 0xFFE ∧ bytes4 (after ((start.setReg .r7 0x1002).setReg .r1 9) 0x88800000) 0xFFC = [9, 0, 0, 0] := by decide

/-- V82 -/
theorem test_loadb_zero_extends : (after (cells start 0x100 0x80) 0x90800100).reg .r1 = 0x80 := by decide

/-- V81 -/
theorem test_loadb_top : (after (cells start 0x100 0x11223344) 0x90800103).reg .r1 = 0x11 := by decide

/-- V88 -/
theorem test_storeb : bytes4 (after (two 0xAABBCCDD 0) 0x98800203) 0x200 = [0, 0, 0, 0xDD] := by decide

/-- V97: the address wraps and is out of bounds -/
theorem test_storeb_below_zero :
    (after (two 1 0) 0x9CAFFFFF).fault = some (.addressOutOfBounds 0 0xFFFFFFFF .write .byte) ∧ (after (two 1 0) 0x9CAFFFFF).runState = .stopped := by decide

/-- V79 -/
theorem test_loadh_unaligned : (after (cells start 0x100 0x11223344) 0xA0800103).reg .r1 = 0x1122 := by decide

/-- V87 -/
theorem test_storeh : bytes4 (after (two 0xAABBCCDD 0) 0xA8800201) 0x200 = [0xDD, 0xCC, 0, 0] := by decide

/-- V92 -/
theorem test_load_wraps :
    (after (cells (start.setReg .r2 0xFFFFFFF0) 0x100 0x11223344) 0xB4A00110).reg .r1 = 0x11223344 := by decide

/-- V93 -/
theorem test_load_outside :
    (after (start) 0xB0840000).fault = some (.addressOutOfBounds 0 0x40000 .read .word) ∧ (after (start) 0xB0840000).pc = 0 := by decide

/-- V86 -/
theorem test_store : bytes4 (after (two 0x11223344 0) 0xB8800202) 0x200 = [0x44, 0x33, 0x22, 0x11] := by decide

/-- V90 -/
theorem test_store_last_word :
    bytes4 (after (two 0xCAFEBABE 0x3FFFF) 0xBCA00000) 0x3FFFC = [0xBE, 0xBA, 0xFE, 0xCA] := by decide

/-- V107 -/
theorem test_jp_aligns : (after (start.setReg .r3 0x207) 0xC0060000).pc = 0x204 := by decide

/-- V73 -/
theorem test_jp_not_taken : (after (start.setSr 5) 0xC6C00100).pc = 4 := by decide

/-- V110 (S8) -/
theorem test_call :
    (after (at_ (start.setReg .r7 0x1000) 8) 0xCC000040).pc = 0x40 ∧ (after (at_ (start.setReg .r7 0x1000) 8) 0xCC000040).reg .r7 = 0xFFC ∧ bytes4 (after (at_ (start.setReg .r7 0x1000) 8) 0xCC000040) 0xFFC = [8, 0, 0, 0] := by decide

/-- V112 -/
theorem test_call_r7 : (after (at_ (start.setReg .r7 0x1000) 8) 0xC80E0000).pc = 0xFFC := by decide

/-- V115 (S7) -/
theorem test_jr_back : (after (at_ start 0x20) 0xD40FFFF8).pc = 0x18 := by decide

/-- V118 -/
theorem test_jr_not_taken : (after (at_ start 0x20) 0xD4C000E0).pc = 0x24 := by decide

/-- V122 -/
theorem test_ret :
    (after (at_ (cells (start.setReg .r7 0xFFC) 0xFFC 0x13) 0x40) 0xD8000000).pc = 0x14 ∧ (after (at_ (cells (start.setReg .r7 0xFFC) 0xFFC 0x13) 0x40) 0xD8000000).reg .r7 = 0x1000 := by decide

/-- V124 -/
theorem test_ret_outside :
    (after (at_ (start.setReg .r7 0x40000) 0x40) 0xD8000000).pc = 0x40 ∧ (after (at_ (start.setReg .r7 0x40000) 0x40) 0xD8000000).fault = some (.addressOutOfBounds 0x40 0x40000 .read .word) := by decide

/-- V126 -/
theorem test_reti :
    (after (at_ (cells ((start.setReg .r7 0xFFC).setSr 0xF) 0xFFC 8) 0x40) 0xD8000001).pc = 0xC ∧ (after (at_ (cells ((start.setReg .r7 0xFFC).setSr 0xF) 0xFFC 8) 0x40) 0xD8000001).sr = 0x8F := by decide

/-- R236: iif is set -/
theorem test_retn :
    (after ((cells (start.setReg .r7 0xFFC) 0xFFC 8).setIif false) 0xD8000003).iif = true ∧ (after ((cells (start.setReg .r7 0xFFC) 0xFFC 8).setIif false) 0xD8000003).pc = 0xC := by decide

/-- V129 -/
theorem test_halt :
    (after (at_ (start.setSr 0xF) 0x10) 0xF8000000).pc = 0x14 ∧ (after (at_ (start.setSr 0xF) 0x10) 0xF8000000).runState = .stopped := by decide

/-- V130 -/
theorem test_halt_not_taken :
    (after (at_ start 0x10) 0xF9C00000).pc = 0x14 ∧ (after (at_ start 0x10) 0xF9C00000).runState = .running := by decide

/-- V132 -/
theorem test_undecodable :
    (after (at_ start 0x20) 0x70000000).fault = some (.decodeFailure 0x20 0x70000000) ∧ (after (at_ start 0x20) 0x70000000).pc = 0x20 := by decide

/-- V137 -/
theorem test_fetch_outside :
    (next (at_ start 0xFFF80000)).fault = some (.addressOutOfBounds 0xFFF80000 0xFFF80000 .fetch .word) := by decide

/-! ## Host interactions (V138 to V151) -/

/-- V140 -/
theorem test_load_then_step :
    (next (next (sent State.reset [.load [0x00, 0x00, 0x80, 0x04], .step]))).pc = 4 ∧
    (next (next (sent State.reset [.load [0x00, 0x00, 0x80, 0x04], .step]))).runState = .stopped := by decide

/-- V139 -/
theorem test_tick_while_stopped : (next (sent State.reset [.tick])).pc = 0 ∧ (next State.reset).pc = 0 := by decide

/-- V141 -/
theorem test_pause : (next (next (sent State.reset [.run, .pause]))).runState = .paused := by decide

/-- V147 -/
theorem test_run_refused_on_fault :
    (next (sent { State.reset with fault := some (.decodeFailure 4 0x78000000) } [.run])).runState = .stopped := by decide

/-- V148 -/
theorem test_reset_clears_fault :
    (next (sent { State.reset with fault := some (.decodeFailure 4 0x78000000) } [.reset])).fault = none := by decide

/-- V149 -/
theorem test_load_refused_while_running : (next (sent start [.load [0xFF]])).readByte 0 = 0 := by decide

/-- R260: the events of one cycle, the latest first -/
theorem test_trace_of_a_cycle :
    (after start 0x04800005).trace = [.afterCycle, .beforeExecute (.move (.imm 5) (.reg .r1)), .beforeCycle] := by decide

/-- R304, decision D9 -/
theorem test_trace_of_a_fault : (after start 0x70000000).trace = [.onStop, .beforeCycle] := by decide

theorem test_table_word :
    decodeTableWord 32 0x21940000 = some (.add .r1 (.reg .r2) .r3) ∧ decodeTableWord 32 0x70000000 = none := by decide

theorem test_fetch_word_from_reset : (after State.reset 0x04800005).reg .r1 = 5 := by decide

/-! ## Witnesses: for each statement with hypotheses, values that meet them all -/

/-- A value of the code maps other than the default: OR and AND exchanged, N-set and N-clear exchanged. -/
def otherMaps : Config.CodeMaps where
  opcodeOf := fun c => opcodeOf (if c = 1#5 then 2#5 else if c = 2#5 then 1#5 else c)
  codeOf := fun op => match op with
    | .or => 2#5
    | .and => 1#5
    | o => opcodeCode o
  condOf := fun c => condOf (if c = 1#4 then 2#4 else if c = 2#4 then 1#4 else c)
  condCode := fun t => match t with
    | .nSet => 2#4
    | .nClear => 1#4
    | u => condCode u

theorem otherMaps_lawful : otherMaps.Lawful := by
  refine ⟨fun c op => ?_, fun c t => ?_, rfl, rfl, rfl⟩
  · revert c
    cases op <;> decide
  · revert c
    cases t <;> decide

theorem witness_DecodeOfEncodeUnderEveryCodeMap :
    otherMaps.Lawful ∧ (Instr.or .r1 (.imm 0xFFF80000) .r2).wf = true := ⟨otherMaps_lawful, by decide⟩

/-- The word with ignored bits set of section 2.9, and one with another register. -/
theorem witness_WordIsInstructionIffItsFieldsAgree :
    (Instr.add .r1 (.reg .r2) .r1).wf = true ∧
    (0x2095FFFF#32 &&& careMask (.add .r1 (.reg .r2) .r1) = encode (.add .r1 (.reg .r2) .r1) &&& careMask (.add .r1 (.reg .r2) .r1)) ∧
    (0x2097FFFF#32 &&& careMask (.add .r1 (.reg .r2) .r1) ≠ encode (.add .r1 (.reg .r2) .r1) &&& careMask (.add .r1 (.reg .r2) .r1)) := by decide

theorem witness_DecodedInstructionIsWellFormed : decode 0x2517FFFF = .ok (.add .r1 (.imm 0x7FFFF) .r2) := by decide

theorem witness_CodecReadsAndExtendsTwosComplement : 0 < 4 ∧ 4 ≤ 8 := by decide

theorem witness_BitSliceIsTheField : 27 ≤ 31 ∧ 31 ≤ 31 ∧ 0 ≤ 0 := by decide

theorem witness_LogicalInstructionsWriteBitwiseResults :
    ∀ i op, (i, op) ∈ [(Instr.and .r1 (.reg .r2) .r3, Bool.and), (.or .r1 (.reg .r2) .r3, Bool.or),
      (.xor .r1 (.reg .r2) .r3, Bool.xor)] →
    i = .and .r1 (.reg .r2) .r3 ∧ op = Bool.and ∨ i = .or .r1 (.reg .r2) .r3 ∧ op = Bool.or ∨
      i = .xor .r1 (.reg .r2) .r3 ∧ op = Bool.xor := by
  intro i op h
  simpa using h

theorem witness_AluInstructionsChangeOnlyDestAndFlags :
    (Instr.ashr .r1 (.imm 4) .r2).aluDest = some .r2 ∧
    ∃ t, exec (.ashr .r1 (.imm 4) .r2) (two 0x80000010 0) = .next t := ⟨rfl, _, rfl⟩

theorem witness_MemWriteStoresLittleEndian :
    (0x3FFFC#32).toNat + Width.word.bytes ≤ 262144 ∧ (0x3FFFE#32).toNat + Width.half.bytes ≤ 262144 ∧
    (0x3FFFF#32).toNat + Width.byte.bytes ≤ 262144 := by decide

theorem witness_MemReadIsLittleEndianWithinBounds :
    (0x3FFFC#32).toNat + Width.word.bytes ≤ 262144 ∧ 262144 < (0x3FFFD#32).toNat + Width.word.bytes ∧
    (0x3FFFF#32).toNat + Width.byte.bytes ≤ 262144 ∧ 262144 < (0x40000#32).toNat + Width.byte.bytes := by decide

theorem witness_LoadsReadZeroExtended :
    (align .word (start.ea (.abs 0x3FFFF))).toNat < 262144 ∧ (align .half (start.ea (.abs 0x3FFFF))).toNat < 262144 ∧
    (align .byte (start.ea (.abs 0x3FFFF))).toNat < 262144 := by decide

theorem witness_StoresWriteTruncated :
    (align .word ((two 0 0x3FFF0).ea (.base .r2 0xF))).toNat < 262144 ∧
    (align .half ((two 0 0x3FFF0).ea (.base .r2 0xF))).toNat < 262144 ∧
    (align .byte ((two 0 0x3FFF0).ea (.base .r2 0xF))).toNat < 262144 := by decide

theorem witness_PushDecrementsThenStores :
    (((start.setReg .r7 0x40000).reg .r7 - 4#32) &&& 0xFFFFFFFC#32).toNat < 262144 ∧
    (((start.setReg .r7 4).reg .r7 - 4#32) &&& 0xFFFFFFFC#32).toNat < 262144 := by decide

theorem witness_PopLoadsThenIncrements : ((start.setReg .r7 0x3FFFF).reg .r7 &&& 0xFFFFFFFC#32).toNat < 262144 := by decide

theorem witness_PushThenPopRestoresRegisters :
    (((start.setReg .r7 0x1002).reg .r7 - 4#32) &&& 0xFFFFFFFC#32).toNat < 262144 := by decide

theorem witness_AccessOutsideMemory_loads :
    0x40000#32 = align .word (start.ea (.abs 0x40000)) ∧ 0x40000#32 = align .half (start.ea (.abs 0x40000)) ∧
    0x40000#32 = align .byte (start.ea (.abs 0x40000)) ∧ 262144 ≤ (0x40000#32).toNat := by decide

theorem witness_AccessOutsideMemory_stores :
    0x40000#32 = align .word ((two 0 0x40003).ea (.base .r2 0)) ∧
    0x40000#32 = align .half ((two 0 0x40001).ea (.base .r2 0)) ∧
    0x40000#32 = align .byte ((two 0 0x40000).ea (.base .r2 0)) ∧ 262144 ≤ (0x40000#32).toNat := by decide

/-- PUSH and a taken CALL with r7 = 0 (V103, V114). -/
theorem witness_AccessOutsideMemory_push :
    condHolds .always start.sr = true ∧ 0xFFFFFFFC#32 = (start.reg .r7 - 4#32) &&& 0xFFFFFFFC#32 ∧
    262144 ≤ (0xFFFFFFFC#32).toNat := by decide

/-- POP and a taken RET, RETI or RETN with r7 = 0x40000 (V104, V124). -/
theorem witness_AccessOutsideMemory_pop :
    condHolds .zSet ((start.setReg .r7 0x40000).setSr 8).sr = true ∧
    0x40000#32 = (start.setReg .r7 0x40000).reg .r7 &&& 0xFFFFFFFC#32 ∧ 262144 ≤ (0x40000#32).toNat := by decide

theorem witness_UntakenConditionalsOnlyAdvance :
    ([.jp .zSet (.imm 0), .call .zSet (.imm 0), .jr .zSet 0, .ret .zSet, .reti .zSet, .retn .zSet, .halt .zSet].all
      fun i : Instr => i.condition = some .zSet) = true ∧ condHolds .zSet start.sr = false := by decide

theorem witness_TakenJumpsLandOnTheirTargets :
    condHolds .zSet (start.setSr 8).sr = true ∧ 0x207#32 = (start.setReg .r3 0x207).regImm (.reg .r3) ∧
    0xFFFFFFF8#32 = start.pc + 0xFFFFFFF8#32 := by decide

theorem witness_TakenCallPushesItsOwnAddress :
    condHolds .always (start.setReg .r7 0x40000).sr = true ∧
    (((start.setReg .r7 0x40000).reg .r7 - 4#32) &&& 0xFFFFFFFC#32).toNat < 262144 := by decide

theorem witness_TakenReturnsPopTheirAddress :
    condHolds .always (start.setReg .r7 0x3FFFC).sr = true ∧
    ((start.setReg .r7 0x3FFFC).reg .r7 &&& 0xFFFFFFFC#32).toNat < 262144 := by decide

/-- A state about to call, and the state its CALL leaves. -/
def caller : State := at_ (start.setReg .r7 0x1000) 8

def called : State :=
  match exec (.call .always (.imm 0x40)) caller with
  | .next t => t
  | .fault _ => caller
  | .refused _ => caller

theorem witness_ReturnResumesAfterTheCall :
    condHolds .always caller.sr = true ∧ caller.pc &&& 3#32 = 0#32 ∧
    ((caller.reg .r7 - 4#32) &&& 0xFFFFFFFC#32).toNat < 262144 ∧
    exec (.call .always (.imm 0x40)) caller = .next called ∧ called.reg .r7 = called.reg .r7 ∧ SameMem called called := ⟨by decide, by decide, by decide, rfl, rfl, fun _ => rfl⟩

theorem witness_TakenHaltStopsTheCore : Cond.always = .always ∧ condHolds .zSet (start.setSr 8).sr = true := by decide

theorem witness_OnlyTheirWriters_flags :
    ∃ t, exec (.add .r1 (.reg .r2) .r3) (two 0x7FFFFFFF 1) = .next t ∧
    t.sr.getLsbD 2 ≠ (two 0x7FFFFFFF 1).sr.getLsbD 2 := ⟨_, rfl, by decide⟩

theorem witness_OnlyTheirWriters_move :
    ∃ t, exec (.move (.imm 0x80) .sr) start = .next t ∧ t.sr.getLsbD 7 ≠ start.sr.getLsbD 7 := ⟨_, rfl, by decide⟩

theorem witness_OnlyTheirWriters_reti :
    ∃ t, exec (.reti .always) start = .next t ∧ t.sr.getLsbD 7 ≠ start.sr.getLsbD 7 := ⟨_, rfl, by decide⟩

theorem witness_OnlyTheirWriters_retn :
    ∃ t, exec (.retn .always) (start.setIif false) = .next t ∧ t.iif ≠ (start.setIif false).iif := ⟨_, rfl, by decide⟩

theorem witness_InstructionFaultsArePrecise :
    start.fault = none ∧ ∃ t, exec (.load (.abs 0x40000) .r1) start = .next t ∧
    t.fault = some (.addressOutOfBounds 0 0x40000 .read .word) := ⟨rfl, _, rfl, rfl⟩

/-- A state other than reset's that meets the invariant: running, at the last word of memory, with flags and memory set. -/
def busy : State := cells (at_ ((two 1 2).setSr 0x8F) 0x3FFFC) 0x3FFFC 0x21940000

theorem busy_inv : busy.Inv := ⟨by decide, by decide, rfl, by decide, fun h => absurd rfl h⟩

/-- A state that holds a fault and meets the invariant. -/
def stuck : State := { State.reset with fault := some (.decodeFailure 4 0x78000000), pc := 4 }

theorem stuck_inv : stuck.Inv := ⟨by decide, by decide, rfl, rfl, fun _ => rfl⟩

theorem witness_EveryStepKeepsTheInvariant : busy.Inv ∧ ∃ t, step busy = .next t := ⟨busy_inv, _, rfl⟩

/-- The invariant holds of a state in which the host has something else to send. -/
theorem sent_inv {s : State} (h : s.Inv) (es : List HostEvent) : (sent s es).Inv := ⟨h.1, h.2, h.3, h.4, h.5⟩

theorem witness_RunStateChanges_run :
    (sent { stuck with fault := none } [.run]).Inv ∧
    ∃ t, step (sent { stuck with fault := none } [.run]) = .next t ∧ t.runState ≠ (sent { stuck with fault := none } [.run]).runState := ⟨⟨by decide, by decide, rfl, rfl, fun _ => rfl⟩, _, rfl, by decide⟩

theorem witness_RunStateChanges_pause :
    (sent busy [.pause]).Inv ∧ ∃ t, step (sent busy [.pause]) = .next t ∧ t.runState ≠ (sent busy [.pause]).runState := ⟨sent_inv busy_inv _, _, rfl, by decide⟩

theorem witness_RunStateChanges_stop :
    (sent busy [.stop]).Inv ∧ ∃ t, step (sent busy [.stop]) = .next t ∧ t.runState ≠ (sent busy [.stop]).runState := ⟨sent_inv busy_inv _, _, rfl, by decide⟩

theorem witness_RunStateChanges_reset :
    (sent busy [.reset]).Inv ∧ ∃ t, step (sent busy [.reset]) = .next t ∧ t.runState ≠ (sent busy [.reset]).runState := ⟨sent_inv busy_inv _, _, rfl, by decide⟩

theorem witness_RunStateChanges_halt :
    (cells start 0 0xF8000000).Inv ∧
    ∃ t, step (cells start 0 0xF8000000) = .next t ∧ t.runState ≠ (cells start 0 0xF8000000).runState ∧ t.fault = none := ⟨⟨by decide, by decide, rfl, by decide, fun h => absurd rfl h⟩, _, rfl, by decide, rfl⟩

theorem witness_RunStateChanges_fault :
    (cells start 0 0x70000000).Inv ∧
    ∃ t, step (cells start 0 0x70000000) = .next t ∧ t.runState ≠ (cells start 0 0x70000000).runState ∧ t.fault ≠ none := ⟨⟨by decide, by decide, rfl, by decide, fun h => absurd rfl h⟩, _, rfl, by decide, by decide⟩

theorem witness_FaultIsHeldUntilReset :
    (sent stuck [.run]).Inv ∧ (sent stuck [.run]).fault = some (.decodeFailure 4 0x78000000) ∧
    (sent stuck [.run]).nextEvent ≠ .reset ∧ ∃ t, step (sent stuck [.run]) = .next t := ⟨sent_inv stuck_inv _, rfl, by decide, _, rfl⟩

theorem witness_StepRunsTheDecodedInstruction :
    busy.RunsCycle ∧ busy.pc.toNat + 4 ≤ 262144 ∧ (Instr.add .r1 (.reg .r2) .r3).wf = true ∧
    decodeBytes busy.bytesAtPc = .ok (.add .r1 (.reg .r2) .r3, []) := ⟨.inl ⟨rfl, rfl⟩, by decide, by decide, by decide⟩

theorem witness_RunsCycle_step_command :
    (sent { busy with runState := .paused } [.step]).RunsCycle := .inr ⟨rfl, by decide, rfl⟩

theorem witness_FetchOutsideMemoryTakesTheFault :
    (at_ start 0x40000).RunsCycle ∧ 262144 < (at_ start 0x40000).pc.toNat + 4 := ⟨.inl ⟨rfl, rfl⟩, by decide⟩

theorem witness_UndecodableWordTakesTheFault :
    (cells start 0 0x70000000).RunsCycle ∧ (cells start 0 0x70000000).pc.toNat + 4 ≤ 262144 ∧
    HoldsBytes (cells start 0 0x70000000) (cells start 0 0x70000000).pc.toNat 4 0x70000000 ∧
    decode 0x70000000 = .error (.undefinedOperationCode 0b01110) := by
  refine ⟨.inl ⟨rfl, rfl⟩, by decide, fun k hk => ?_, by decide⟩
  obtain rfl | rfl | rfl | rfl : k = 0 ∨ k = 1 ∨ k = 2 ∨ k = 3 := by omega
  all_goals decide

theorem witness_PlacedWordIsRunNext : busy.pc.toNat + 4 ≤ 262144 ∧ decode 0xF8000000 = .ok (.halt .always) := by decide

theorem witness_StoredWordIsWhatTheNextFetchReads : (align .word (start.ea (.abs 0x3FFFF))).toNat < 262144 := by decide

theorem witness_HostCommands_tick :
    (sent State.reset [.tick]).nextEvent = .tick ∧ State.reset.nextEvent = .tick ∧ State.reset.runState ≠ .running := by decide

theorem witness_HostCommands_run : (sent start [.run]).nextEvent = .run ∧ (sent start [.run]).fault = none := by decide

theorem witness_HostCommands_run_refused : (sent stuck [.run]).nextEvent = .run ∧ (sent stuck [.run]).fault ≠ none := by decide

theorem witness_HostCommands_pause :
    (sent start [.pause]).nextEvent = .pause ∧ (sent start [.pause]).runState = .running ∧
    (sent stuck [.pause]).nextEvent = .pause ∧ (sent stuck [.pause]).runState ≠ .running := by decide

theorem witness_HostCommands_stop : (sent start [.stop]).nextEvent = .stop := by decide

theorem witness_HostCommands_step :
    (sent start [.step]).nextEvent = .step ∧ (sent start [.step]).runState = .running ∧
    (sent stuck [.step]).nextEvent = .step ∧ (sent stuck [.step]).fault ≠ none := by decide

theorem witness_HostCommands_load :
    (sent start [.load [1]]).nextEvent = .load [1] ∧ (sent start [.load [1]]).runState ≠ .stopped ∧
    (sent stuck [.load (List.replicate 262145 1)]).nextEvent = .load (List.replicate 262145 1) ∧
    262144 < (List.replicate 262145 (1 : Byte)).length := ⟨rfl, by decide, rfl, by rw [List.length_replicate]; decide⟩

theorem witness_ImageLoadFillsMemory :
    (sent stuck [.load (List.replicate 262144 1)]).nextEvent = .load (List.replicate 262144 1) ∧
    (sent stuck [.load (List.replicate 262144 1)]).runState = .stopped ∧
    (List.replicate 262144 (1 : Byte)).length ≤ 262144 := ⟨rfl, rfl, by rw [List.length_replicate]⟩

theorem witness_ResetGivesTheStartupValues : (sent busy [.reset]).nextEvent = .reset := by decide

/-! ## The parameters of R4 at values other than the default -/

/-- SUB_C_CONVENTION not_borrow. -/
def unborrowed : Config.Params := { defaultParams with subC := .notBorrow }

/-- SHIFT_COUNT_BITS 6. -/
def wide : Config.Params := { defaultParams with shiftCountBits := 6 }

/-- SHIFT_COUNT_BITS 4, below the values the table of parameters allows: the statement holds of it too. -/
def narrow : Config.Params := { defaultParams with shiftCountBits := 4 }

/-- Other code maps. -/
def remapped : Config.Params := { defaultParams with maps := otherMaps }

/-- The status register a step or an instruction leaves. -/
def srOf : Host.Outcome State Fault Refusal → Word
  | .next t => t.sr
  | .fault _ => 0
  | .refused _ => 0

/-- A register a step or an instruction leaves. -/
def regOf (r : Reg) : Host.Outcome State Fault Refusal → Word
  | .next t => t.reg r
  | .fault _ => 0
  | .refused _ => 0

theorem wide_lawful_counts : 5 ≤ wide.shiftCountBits ∧ wide.shiftCountBits ≤ 32 := by decide

/-- V27 with the complement of its C (decision D4). -/
theorem test_sub_not_borrow : srOf (execWith unborrowed (.sub .r1 (.reg .r2) .r3) (two 3 5)) = 1 := by decide

/-- V45, with OR on the class 00010. -/
theorem test_step_under_other_maps :
    regOf .r3 (stepWith remapped (cells (two 0x80000000 1) 0 0x11940000)) = 0x80000001 := by decide

/-- R268, R346: FREQ 1. -/
theorem test_tick_interval : defaultParams.tickIntervalMs = 1000 := by norm_num [Config.Params.tickIntervalMs, defaultParams]

theorem witness_EveryParameterValueKeepsTheInvariant : busy.Inv ∧ ∃ t, stepWith unborrowed busy = .next t := ⟨busy_inv, _, rfl⟩

theorem witness_ParametersAct_sub :
    execWith unborrowed (.sub .r1 (.reg .r2) .r3) (two 3 5) ≠ exec (.sub .r1 (.reg .r2) .r3) (two 3 5) := fun h => absurd (congrArg srOf h) (by decide)

theorem witness_ParametersAct_shift :
    execWith narrow (.shl .r1 (.imm 16) .r3) (two 1 0) ≠ exec (.shl .r1 (.imm 16) .r3) (two 1 0) := fun h => absurd (congrArg (regOf .r3) h) (by decide)

theorem witness_ParametersAct_convention : unborrowed.subC = .notBorrow := rfl

/-- The counts where the clauses of the statement meet: 31, and 32, of which only the second clause speaks. -/
theorem witness_ParametersAct_count :
    5 ≤ wide.shiftCountBits ∧ ((two 3 31).regImm (.reg .r2)).toNat % 2 ^ wide.shiftCountBits < 32 ∧ ¬ ((two 3 32).regImm (.reg .r2)).toNat % 2 ^ wide.shiftCountBits < 32 := by decide

end Sys2Proof.Tests
end

section
/-! The bit codec (R5 to R7): what `intToBinary` gives, bit by bit and read back, and with it the statement about `bitSlice`. -/

namespace Sys2Proof.Machine.Codec

/-- R6: the length of the string is the width asked for. -/
@[simp] theorem length_intToBinary (value width : Nat) : (intToBinary value width).length = width := by
  induction width with
  | zero => rfl
  | succ width ih => simp [intToBinary, ih]

/-- R6: counted from the front, the bits run down from bit `width - 1`. -/
theorem getElem?_intToBinary (value : Nat) {width k : Nat} (hk : k < width) :
    (intToBinary value width)[k]? = some (value.testBit (width - 1 - k)) := by
  induction width generalizing k with
  | zero => omega
  | succ width ih =>
    cases k with
    | zero => simp [intToBinary]
    | succ k =>
      have hbit : width - (k + 1) = width - 1 - k := by omega
      simp [intToBinary, ih (k := k) (by omega), hbit]

/-- R6, R7: the top bit is worth its power of two and the rest is the value modulo that power. -/
@[simp] theorem unsignedOf_intToBinary (value width : Nat) : unsignedOf (intToBinary value width) = value % 2 ^ width := by
  induction width with
  | zero => simp [intToBinary, unsignedOf, Nat.mod_one]
  | succ width ih =>
    rw [intToBinary, unsignedOf, length_intToBinary, ih, Nat.toNat_testBit, Nat.mod_pow_succ, Nat.mul_comm,
      Nat.add_comm]

/-- R7: read as unsigned, every bit string, the empty one too, is its unsigned value. -/
@[simp] theorem binaryToInt_false (bits : Bits) : binaryToInt bits false = (unsignedOf bits : Int) := by
  cases bits with
  | nil => rfl
  | cons b rest => simp [binaryToInt]

/-- R5: the string holds both ends of the range. -/
@[simp] theorem length_bitSlice (w : Word) (first last : Nat) : (bitSlice w first last).length = last + 1 - first :=
  length_intToBinary _ _

/-- R5: bit `i` of the word stands at its distance from the last bit of the range. -/
theorem getElem?_bitSlice (w : Word) {first last i : Nat} (hfirst : first ≤ i) (hlast : i ≤ last) :
    (bitSlice w first last)[last - i]? = some (w.getLsbD i) := by
  have hbit : first + (last + 1 - first - 1 - (last - i)) = i := by omega
  rw [bitSlice, getElem?_intToBinary _ (by omega), Nat.testBit_shiftRight, hbit, BitVec.testBit_toNat]

/-- R5, R7: the number the string stands for is the field of the word. -/
theorem unsignedOf_bitSlice (w : Word) (first last : Nat) :
    unsignedOf (bitSlice w first last) = (w.extractLsb' first (last + 1 - first)).toNat := by
  rw [bitSlice, unsignedOf_intToBinary, BitVec.extractLsb'_toNat]

end Sys2Proof.Machine.Codec

namespace Sys2Proof.Machine

/-- Settles O9: `bitSlice` is `intToBinary` of the shifted word, whose length, bits and value are known for every width. -/
theorem bitSliceIsTheField : Obligations.BitSliceIsTheField := by
  intro w first last _ _
  refine ⟨Codec.length_bitSlice w first last, fun i => Codec.getElem?_bitSlice w, ?_⟩
  rw [Codec.binaryToInt_false, Codec.unsignedOf_bitSlice]

end Sys2Proof.Machine
end

section
/-! O10 (R26): writing a flag of sr. Every bit of the result is given by the model's law `getLsbD_setFlag`. -/

namespace Sys2Proof.Machine

/-- Settles O10: the flag's own bit reads back the value, and at every other index the bit law gives the old bit. -/
theorem setFlagWritesThatBitOnly : Obligations.SetFlagWritesThatBitOnly := by
  intro sr f b
  constructor
  · rw [getFlag_setFlag, if_pos rfl]
  · intro k hk
    rw [getLsbD_setFlag, if_neg hk]

end Sys2Proof.Machine
end

section
/-! O29 (R55 to R57): a write inside memory. The model's laws `read_writeN_in` and `read_writeN_out` give every byte after it. -/

namespace Sys2Proof.Machine

/-- The bytes of the access are the low bytes of the value, the lowest first. -/
theorem State.setMem_writeN_holdsBytes (s : State) (a : Nat) (w : Width) (v : Word) :
    HoldsBytes (s.setMem (s.mem.writeN a w v)) a w.bytes v := by
  intro k hk
  rw [setMem_readByte, Memory.read_writeN_in _ _ _ _ _ hk, byteOf]

/-- Every byte outside the access is as it was. -/
theorem State.setMem_writeN_sameMemBut (s : State) (a : Nat) (w : Width) (v : Word) :
    SameMemBut a w.bytes s (s.setMem (s.mem.writeN a w v)) := by
  intro x hx
  rw [setMem_readByte, Memory.read_writeN_out _ _ _ _ _ hx, readByte]

/-- Settles O29: inside memory the write answers the state with the bytes written, and replacing memory keeps every other part. -/
theorem memWriteStoresLittleEndian : Obligations.MemWriteStoresLittleEndian := by
  intro s a w v hin
  obtain ⟨-, hok⟩ | ⟨hout, -⟩ := s.memWrite_cases a w v
  · exact ⟨_, hok, s.setMem_writeN_holdsBytes a.toNat w v, s.setMem_writeN_sameMemBut a.toNat w v,
      fun _ _ => rfl, fun _ _ => rfl, ⟨rfl, rfl, rfl, rfl, rfl⟩, rfl⟩
  · exact absurd hin (Nat.not_le.mpr hout)

end Sys2Proof.Machine
end

section
/-! O28 (R140): MOVE. The two masks of the model's status-register forms are read bit by bit, and with them sr's low byte as a
source and sr as a destination; every other part of the state is kept by the model's own updates. -/

namespace Sys2Proof.Machine

/-- The mask of the status register's low byte has the bits below 8, and no other. -/
theorem getLsbD_lowByteMask (k : Nat) : (0xFF#32).getLsbD k = decide (k < 8) := by
  have hmask : 0xFF#32 = (BitVec.allOnes 8).setWidth 32 := by decide
  rw [hmask, BitVec.getLsbD_setWidth, BitVec.getLsbD_allOnes, Bool.and_eq_right_iff_imp]
  simp only [decide_eq_true_eq]
  omega

/-- R140: the low 8 bits of sr, as the model masks them, are its low byte extended by zeros. -/
theorem and_lowByteMask (w : Word) : w &&& 0xFF#32 = (w.extractLsb' 0 8).setWidth 32 := by
  apply BitVec.eq_of_getLsbD_eq
  intro k hk
  rw [BitVec.getLsbD_and, getLsbD_lowByteMask, BitVec.getLsbD_setWidth, BitVec.getLsbD_extractLsb', Nat.zero_add,
    decide_eq_true hk, Bool.true_and, Bool.and_comm]

/-- R140: MOVE to sr writes the bits below 8 from the value and keeps the others. -/
theorem State.moveDst_sr_getLsbD (s : State) (v : Word) (k : Nat) :
    (s.moveDst v .sr).sr.getLsbD k = if k < 8 then v.getLsbD k else s.sr.getLsbD k := by
  have hmask : 0xFFFFFF00#32 = ~~~0xFF#32 := by decide
  rw [State.moveDst, State.setSr_sr, hmask, BitVec.getLsbD_or, BitVec.getLsbD_and, BitVec.getLsbD_and, BitVec.getLsbD_not,
    getLsbD_lowByteMask]
  by_cases hk : k < 8
  · simp [hk]
  · simpa [hk] using BitVec.lt_of_getLsbD

/-- MOVE to sr keeps every bit outside the eight it may write. -/
theorem State.moveDst_sr_sameSrBut (s : State) (v : Word) :
    SameSrBut [0, 1, 2, 3, 4, 5, 6, 7] s (s.moveDst v .sr).advance := by
  intro k hk
  have hge : ¬ k < 8 := by
    simp only [List.mem_cons, List.not_mem_nil, or_false, not_or] at hk
    omega
  rw [State.advance_sr, State.moveDst_sr_getLsbD, if_neg hge]

/-- MOVE answers the state with its destination written and the pc advanced. -/
theorem exec_move (src : MoveSrc) (dest : MoveDst) (s : State) :
    exec (.move src dest) s = .next (s.moveDst (s.moveSrc src) dest).advance := rfl

/-- Settles O28: the value of each source form is the one the statement names; a register takes it whole by the register law, sr
bit by bit by `moveDst_sr_getLsbD`. -/
theorem moveCopiesItsSource : Obligations.MoveCopiesItsSource := by
  intro s src v
  have hsrc : s.moveSrc src = v := by
    cases src with
    | sr => exact and_lowByteMask s.sr
    | imm _ => rfl
    | reg _ => rfl
  constructor
  · intro rd
    refine ⟨_, exec_move src (.reg rd) s, (s.setReg_reg_self rd _).trans hsrc, rfl, fun r hr => ?_, fun _ _ => rfl, fun _ => rfl,
      ⟨rfl, rfl, rfl, rfl, rfl⟩⟩
    exact s.setReg_reg_ne rd r _ (List.ne_of_not_mem_cons hr)
  · refine ⟨_, exec_move src .sr s, fun k hk => ?_, rfl, fun _ _ => rfl, s.moveDst_sr_sameSrBut _, fun _ => rfl,
      ⟨rfl, rfl, rfl, rfl, rfl⟩⟩
    rw [State.advance_sr, State.moveDst_sr_getLsbD, if_pos hk, hsrc]

end Sys2Proof.Machine
end

section
/-! O16, O17, O21 (R150, R154, R155, R159 to R161): the ALU forms ADD, ADC, AND, OR and XOR. Each answers the state `aluWrite` gives
for its result, of which the model's law `State.aluWrite_writes` says every part; what is left is the adder's C and V, and the bits of
a logical result. -/

namespace Sys2Proof.Machine

/-- The adder finds a carry by dividing the sum of the low `i` bits by `2 ^ i`: a sum below twice `2 ^ i`, so its quotient is 1 when it
reaches `2 ^ i`, and 0 when it does not. -/
theorem lowSum_div_beq_one (i : Nat) (a b : Word) (cin : Bool) :
    ((a.toNat % 2 ^ i + b.toNat % 2 ^ i + cin.toNat) / 2 ^ i == 1) = BitVec.carry i a b cin := by
  have ha : a.toNat % 2 ^ i < 2 ^ i := Nat.mod_lt _ (Nat.two_pow_pos i)
  have hb : b.toNat % 2 ^ i < 2 ^ i := Nat.mod_lt _ (Nat.two_pow_pos i)
  have hc : cin.toNat ≤ 1 := cin.toNat_le
  rw [BitVec.carry, Bool.eq_iff_iff, beq_iff_eq, decide_eq_true_iff, Nat.div_eq_iff (Nat.two_pow_pos i)]
  omega

/-- R150: the adder's C is the carry out of bit 31. -/
theorem addC_c (a b : Word) (cin : Bool) : (addC a b cin).c = BitVec.carry 32 a b cin := by
  rw [← lowSum_div_beq_one, Nat.mod_eq_of_lt a.isLt, Nat.mod_eq_of_lt b.isLt, addC]

/-- R150: the adder's V is the carry into bit 31 against the carry out of it. -/
theorem addC_v (a b : Word) (cin : Bool) :
    (addC a b cin).v = (BitVec.carry 31 a b cin != BitVec.carry 32 a b cin) := by
  rw [← addC_c, ← lowSum_div_beq_one 31]
  rfl

/-- ADD answers the adder's result with no carry-in (R154). -/
theorem exec_add (src1 : Reg) (src2 : RegImm) (dest : Reg) (s : State) :
    exec (.add src1 src2 dest) s = .next (s.aluWrite dest (addC (s.reg src1) (s.regImm src2) false)) := rfl

/-- ADC answers the adder's result with the C flag as carry-in (R155). -/
theorem exec_adc (src1 : Reg) (src2 : RegImm) (dest : Reg) (s : State) :
    exec (.adc src1 src2 dest) s = .next (s.aluWrite dest (addC (s.reg src1) (s.regImm src2) (s.flag .c))) := rfl

/-- What writing the adder's result leaves, once the result is known by another name. -/
theorem State.aluWrite_addC_writes (s : State) (dest : Reg) (a b : Word) (cin : Bool) {res : Word}
    (hres : (addC a b cin).res = res) :
    let t := s.aluWrite dest (addC a b cin)
    t.reg dest = res ∧ t.flag .n = res.getLsbD 31 ∧ t.flag .z = decide (res = 0#32) ∧
    t.flag .c = BitVec.carry 32 a b cin ∧ t.flag .v = (BitVec.carry 31 a b cin != BitVec.carry 32 a b cin) ∧
    t.pc = pcAfter s := by
  have hwrites := s.aluWrite_writes dest (addC a b cin)
  rwa [hres, addC_c, addC_v] at hwrites

/-- Settles O16: the adder with no carry-in adds zero to the sum. -/
theorem addWritesSumAndFlags : Obligations.AddWritesSumAndFlags := by
  intro s src1 src2 dest
  have hres := (addC_res (s.reg src1) (s.regImm src2) false).trans (BitVec.add_zero _)
  exact ⟨_, exec_add src1 src2 dest s, s.aluWrite_addC_writes dest _ _ _ hres⟩

/-- Settles O17: the adder's carry-in is the C flag of the state before, and counts 1 or 0 in the sum. -/
theorem adcWritesSumWithCarryAndFlags : Obligations.AdcWritesSumWithCarryAndFlags := by
  intro s src1 src2 dest
  have hcin : ∀ cin : Bool, BitVec.ofNat 32 cin.toNat = if cin then 1#32 else 0#32 := by decide
  have hres := addC_res (s.reg src1) (s.regImm src2) (s.flag .c)
  rw [hcin] at hres
  exact ⟨_, exec_adc src1 src2 dest s, s.aluWrite_addC_writes dest _ _ _ hres⟩

/-- An instruction that answers a logical result (R159 to R161) leaves that result's bits and its N and Z, and clears C and V. -/
theorem exec_logical_writes {i : Instr} {s : State} {dest : Reg} {res : Word} {bits : Nat → Bool}
    (hexec : exec i s = .next (s.aluWrite dest (logical res))) (hbits : ∀ k, res.getLsbD k = bits k) :
    ∃ t, exec i s = .next t ∧ (∀ k, k < 32 → (t.reg dest).getLsbD k = bits k) ∧
      t.flag .n = (t.reg dest).getLsbD 31 ∧ t.flag .z = decide (t.reg dest = 0#32) ∧
      t.flag .c = false ∧ t.flag .v = false ∧ t.pc = pcAfter s := by
  obtain ⟨hreg, hn, hz, hc, hv, hpc⟩ := s.aluWrite_writes dest (logical res)
  refine ⟨_, hexec, fun k _ => ?_, ?_, ?_, hc, hv, hpc⟩
  · rw [hreg]
    exact hbits k
  · rw [hreg, hn]
  · rw [hreg, hz]

/-- Settles O21: each of the three answers a logical result, whose bits the word operation gives. -/
theorem logicalInstructionsWriteBitwiseResults : Obligations.LogicalInstructionsWriteBitwiseResults := by
  rintro s src1 src2 dest i op (⟨rfl, rfl⟩ | ⟨rfl, rfl⟩ | ⟨rfl, rfl⟩)
  · exact exec_logical_writes rfl fun _ => BitVec.getLsbD_and
  · exact exec_logical_writes rfl fun _ => BitVec.getLsbD_or
  · exact exec_logical_writes rfl fun _ => BitVec.getLsbD_xor

end Sys2Proof.Machine
end

section
/-! O1 and O2 (R81, R83, R121): the round trip of encoder and decoder under every legal pair of code maps. Each format's fields read
back by the model's laws; a legal map reads its own codes back. -/

namespace Sys2Proof

section RoundTrip
variable {m : Config.CodeMaps}

/-- R81: whatever the code maps, bits 31..27 of an instruction's word are its mnemonic's code. -/
@[simp] theorem opField_encodeWith (m : Config.CodeMaps) (i : Instr) :
    opField (encodeWith m i) = m.codeOf (opcodeOfInstr i) := by
  cases i <;> simp [encodeWith, opcodeOfInstr]

/-- A legal opcode map reads its own codes back, so the word of an instruction is decoded by its mnemonic's format. -/
theorem decodeWith_encodeWith (hm : m.Lawful) (i : Instr) :
    decodeWith m (encodeWith m i) = decodeArgs m (encodeWith m i) (opcodeOfInstr i) := by
  have hop : m.opcodeOf (m.codeOf (opcodeOfInstr i)) = some (opcodeOfInstr i) := (hm.opcode _ _).mpr rfl
  simp only [decodeWith, opField_encodeWith, hop]

/-- R95: a legal condition map reads its own codes back. -/
theorem withCond_condWord (hm : m.Lawful) (op : BitVec 5) (b26 : BitVec 1) (low : BitVec 20) (t : Cond) (k : Cond → Instr) :
    withCond m (condWord op b26 (m.condCode t) low) k = .ok (k t) := by
  have hcond : m.condOf (m.condCode t) = some t := (hm.cond _ _).mpr rfl
  simp only [withCond, condField_condWord, hcond]

/-- R86 to R94: the arguments of a well-formed instruction read back from its word, format by format. -/
theorem decodeArgs_encodeWith (hm : m.Lawful) {i : Instr} (hi : i.wf = true) :
    decodeArgs m (encodeWith m i) (opcodeOfInstr i) = .ok i := by
  cases i with
  | move src dest =>
    simp only [decodeArgs, encodeWith, opcodeOfInstr, moveSrcField_moveWord _ _ hi, moveDstField_moveWord]
  | or | and | xor | add | adc | sub | sbc | rotl | rotr | shl | shr | ashr =>
    simp only [decodeArgs, encodeWith, opcodeOfInstr, rs1Field_aluWord, regImmField_aluWord _ _ _ hi, rdField_aluWord]
  | cmp src1 src2 =>
    simp only [decodeArgs, encodeWith, opcodeOfInstr, rs1Field_aluWord, regImmField_aluWord _ _ _ hi]
  | pop | push =>
    simp only [decodeArgs, encodeWith, opcodeOfInstr, rdField, extract_rd_wordOf, regOf_regCode]
  | loadb | storeb | loadh | storeh | load | store =>
    simp only [decodeArgs, encodeWith, opcodeOfInstr, addrField_memWord _ _ hi, rdField_memWord]
  | jp | call =>
    simp only [decodeArgs, encodeWith, opcodeOfInstr, withCond_condWord hm, regImmField_condWord _ _ hi]
  | jr cond off =>
    simp only [decodeArgs, encodeWith, opcodeOfInstr, withCond_condWord hm, immField, extract_low_condWord, sext20_immLow hi]
  | ret | reti | retn =>
    simp [decodeArgs, encodeWith, opcodeOfInstr, withCond_condWord hm, retKind]
  | halt cond =>
    simp only [decodeArgs, encodeWith, opcodeOfInstr, withCond_condWord hm]

end RoundTrip

/-- Settles O1: the mnemonic reads back by the legal opcode map, the arguments by their format. -/
theorem decodeOfEncodeUnderEveryCodeMap : Obligations.DecodeOfEncodeUnderEveryCodeMap := by
  intro m i hm hi
  rw [decodeWith_encodeWith hm, decodeArgs_encodeWith hm hi]

/-- D1: the default opcode map and its codes are inverse to each other. -/
theorem opcodeOf_eq_some_iff (c : BitVec 5) (op : Opcode) : opcodeOf c = some op ↔ opcodeCode op = c := by
  revert c
  cases op <;> decide

/-- D2: the default condition map and its codes are inverse to each other. -/
theorem condOf_eq_some_iff (c : BitVec 4) (t : Cond) : condOf c = some t ↔ condCode t = c := by
  revert c
  cases t <;> decide

/-- Settles O2: the two maps are inverse to their codes, and the fixed codes are table entries. -/
theorem defaultCodeMapsAreLegal : Obligations.DefaultCodeMapsAreLegal where
  opcode := opcodeOf_eq_some_iff
  cond := condOf_eq_some_iff
  add := rfl
  reserved14 := rfl
  reserved15 := rfl

end Sys2Proof
end

section
/-! O3 (R86 to R97): the bits a format reads. Two words agree on a mask; each field of the decoder is a mask, each format a join of
fields; so a word decodes as another does exactly when the two agree on the format's mask. -/

namespace Sys2Proof

/-! ## Agreement on a mask -/

/-- Two words have the same bits where the mask has ones. -/
def SameOn (mask w e : Word) : Prop := w &&& mask = e &&& mask

theorem sameOn_iff_getLsbD {mask w e : Word} :
    SameOn mask w e ↔ ∀ k, mask.getLsbD k = true → w.getLsbD k = e.getLsbD k := by
  constructor
  · intro h k hk
    simpa [hk] using congrArg (·.getLsbD k) h
  · intro h
    apply BitVec.eq_of_getLsbD_eq
    intro k _
    cases hk : mask.getLsbD k with
    | false => simp [hk]
    | true => simp [hk, h k hk]

/-- Agreement on a join of masks is agreement on each. -/
theorem sameOn_or (m n w e : Word) : SameOn (m ||| n) w e ↔ SameOn m w e ∧ SameOn n w e := by
  simp only [sameOn_iff_getLsbD, BitVec.getLsbD_or, Bool.or_eq_true, or_imp, forall_and]

/-- The mask of the `len` bits from `lo` on. -/
def fieldMask (lo len : Nat) : Word := (BitVec.allOnes len).setWidth 32 <<< lo

theorem getLsbD_fieldMask {lo len k : Nat} (h : lo + len ≤ 32) :
    (fieldMask lo len).getLsbD k = decide (lo ≤ k ∧ k < lo + len) := by
  rw [Bool.eq_iff_iff]
  simp [fieldMask]
  omega

/-- Agreement on the mask of a field is that the field is the same. -/
theorem sameOn_fieldMask {lo len : Nat} (h : lo + len ≤ 32) (w e : Word) :
    SameOn (fieldMask lo len) w e ↔ w.extractLsb' lo len = e.extractLsb' lo len := by
  simp only [sameOn_iff_getLsbD, getLsbD_fieldMask h, decide_eq_true_eq]
  constructor
  · intro hbits
    apply BitVec.eq_of_getLsbD_eq
    intro k hk
    rw [BitVec.getLsbD_extractLsb', BitVec.getLsbD_extractLsb', hbits (lo + k) (by omega)]
  · rintro hfield k ⟨hlo, hhi⟩
    simpa [show k - lo < len by omega, show lo + (k - lo) = k by omega] using congrArg (·.getLsbD (k - lo)) hfield

/-- Agreement on the mask of one bit is that the bit is the same. -/
theorem sameOn_bit {k : Nat} (h : k < 32) (w e : Word) : SameOn (fieldMask k 1) w e ↔ w.getLsbD k = e.getLsbD k := by
  rw [sameOn_iff_getLsbD]
  simp only [getLsbD_fieldMask (show k + 1 ≤ 32 by omega), decide_eq_true_eq]
  constructor
  · exact fun hbits => hbits k ⟨Nat.le_refl k, Nat.lt_succ_self k⟩
  · rintro hbit j ⟨hlo, hhi⟩
    obtain rfl : j = k := by omega
    exact hbit

/-! ## The decoder's fields as masks (R81 to R95) -/

theorem opField_eq_iff (w e : Word) : opField w = opField e ↔ SameOn 0xF8000000 w e :=
  (sameOn_fieldMask (lo := 27) (len := 5) (by decide) w e).symm

theorem condField_eq_iff (w e : Word) : condField w = condField e ↔ SameOn 0x03C00000 w e :=
  (sameOn_fieldMask (lo := 22) (len := 4) (by decide) w e).symm

theorem regOf_injective : Function.Injective regOf := Function.LeftInverse.injective regCode_regOf

theorem rdField_eq_iff (w e : Word) : rdField w = rdField e ↔ SameOn 0x03800000 w e :=
  regOf_injective.eq_iff.trans (sameOn_fieldMask (lo := 23) (len := 3) (by decide) w e).symm

theorem rs1Field_eq_iff (w e : Word) : rs1Field w = rs1Field e ↔ SameOn 0x00700000 w e :=
  regOf_injective.eq_iff.trans (sameOn_fieldMask (lo := 20) (len := 3) (by decide) w e).symm

theorem rs2Field_eq_iff (w e : Word) : rs2Field w = rs2Field e ↔ SameOn 0x000E0000 w e :=
  regOf_injective.eq_iff.trans (sameOn_fieldMask (lo := 17) (len := 3) (by decide) w e).symm

theorem sext20_injective : Function.Injective sext20 := Function.LeftInverse.injective immLow_sext20

theorem immField_eq_iff (w e : Word) : immField w = immField e ↔ SameOn 0x000FFFFF w e :=
  sext20_injective.eq_iff.trans (sameOn_fieldMask (lo := 0) (len := 20) (by decide) w e).symm

theorem bit26_eq_iff (w e : Word) : w.getLsbD 26 = e.getLsbD 26 ↔ SameOn 0x04000000 w e :=
  (sameOn_bit (by decide) w e).symm

theorem bit21_eq_iff (w e : Word) : w.getLsbD 21 = e.getLsbD 21 ↔ SameOn 0x00200000 w e :=
  (sameOn_bit (by decide) w e).symm

theorem bit20_eq_iff (w e : Word) : w.getLsbD 20 = e.getLsbD 20 ↔ SameOn 0x00100000 w e :=
  (sameOn_bit (by decide) w e).symm

theorem bit1_eq_iff (w e : Word) : w.getLsbD 1 = e.getLsbD 1 ↔ SameOn 0x00000002 w e :=
  (sameOn_bit (by decide) w e).symm

theorem bit0_eq_iff (w e : Word) : w.getLsbD 0 = e.getLsbD 0 ↔ SameOn 0x00000001 w e :=
  (sameOn_bit (by decide) w e).symm

/-! ## The operands as masks (R86, R87, R89, R92) -/

theorem regImmField_of_set {w : Word} (h : w.getLsbD 26 = true) : regImmField w = .imm (immField w) := if_pos h

theorem regImmField_of_clear {w : Word} (h : w.getLsbD 26 = false) : regImmField w = .reg (rs2Field w) := by
  rw [regImmField, h, if_neg Bool.false_ne_true]

/-- R87, R89: an immediate-or-register operand is bit 26 and the field that bit selects. -/
theorem regImmField_eq_iff (w e : Word) : regImmField w = regImmField e ↔ SameOn (regImmField e).care w e := by
  cases he : e.getLsbD 26 with
  | true =>
    rw [regImmField_of_set he, show (RegImm.imm (immField e)).care = 0x04000000 ||| 0x000FFFFF from rfl, sameOn_or,
      ← bit26_eq_iff, ← immField_eq_iff, he]
    cases hw : w.getLsbD 26 with
    | true => simp [regImmField_of_set hw]
    | false => simp [regImmField_of_clear hw]
  | false =>
    rw [regImmField_of_clear he, show (RegImm.reg (rs2Field e)).care = 0x04000000 ||| 0x000E0000 from rfl, sameOn_or,
      ← bit26_eq_iff, ← rs2Field_eq_iff, he]
    cases hw : w.getLsbD 26 with
    | true => simp [regImmField_of_set hw]
    | false => simp [regImmField_of_clear hw]

theorem addrField_of_set {w : Word} (h : w.getLsbD 26 = true) : addrField w = .base (rs1Field w) (immField w) := if_pos h

theorem addrField_of_clear {w : Word} (h : w.getLsbD 26 = false) : addrField w = .abs (immField w) := by
  rw [addrField, h, if_neg Bool.false_ne_true]

/-- R92: the data register and the address of a MEM word are bits 25..23, bit 26, and the fields that bit selects. -/
theorem memFields_eq_iff (w e : Word) :
    (addrField w = addrField e ∧ rdField w = rdField e) ↔ SameOn (addrField e).care w e := by
  cases he : e.getLsbD 26 with
  | true =>
    rw [addrField_of_set he, show (Addr.base (rs1Field e) (immField e)).care =
      0x04000000 ||| 0x03800000 ||| 0x00700000 ||| 0x000FFFFF from rfl, sameOn_or, sameOn_or, sameOn_or,
      ← bit26_eq_iff, ← rdField_eq_iff, ← rs1Field_eq_iff, ← immField_eq_iff, he]
    cases hw : w.getLsbD 26 with
    | true => rw [addrField_of_set hw, Addr.base.injEq]; tauto
    | false => simp [addrField_of_clear hw]
  | false =>
    rw [addrField_of_clear he, show (Addr.abs (immField e)).care = 0x04000000 ||| 0x03800000 ||| 0x000FFFFF from rfl,
      sameOn_or, sameOn_or, ← bit26_eq_iff, ← rdField_eq_iff, ← immField_eq_iff, he]
    cases hw : w.getLsbD 26 with
    | true => simp [addrField_of_set hw]
    | false => rw [addrField_of_clear hw, Addr.abs.injEq]; tauto

theorem moveSrcField_of_sr {w : Word} (h : w.getLsbD 21 = true) : moveSrcField w = .sr := if_pos h

/-- R86: MOVE's source, unless it is sr, is the immediate-or-register operand. -/
def RegImm.asMoveSrc : RegImm → MoveSrc
  | .imm v => .imm v
  | .reg r => .reg r

theorem RegImm.asMoveSrc_injective : Function.Injective RegImm.asMoveSrc := by
  intro a b h
  cases a <;> cases b <;> simp_all [RegImm.asMoveSrc]

theorem RegImm.asMoveSrc_ne_sr (a : RegImm) : a.asMoveSrc ≠ .sr := by cases a <;> exact MoveSrc.noConfusion

theorem RegImm.care_asMoveSrc (a : RegImm) : a.asMoveSrc.care = 0x00200000 ||| a.care := by
  cases a with
  | imm v => exact show (0x042FFFFF : Word) = 0x00200000 ||| 0x040FFFFF by decide
  | reg r => exact show (0x042E0000 : Word) = 0x00200000 ||| 0x040E0000 by decide

theorem moveSrcField_of_operand {w : Word} (h : w.getLsbD 21 = false) :
    moveSrcField w = (regImmField w).asMoveSrc := by
  rw [moveSrcField, h, if_neg Bool.false_ne_true, regImmField]
  split <;> rfl

/-- R86: MOVE's source is bit 21 and, where that is 0, the immediate-or-register operand. -/
theorem moveSrcField_eq_iff (w e : Word) : moveSrcField w = moveSrcField e ↔ SameOn (moveSrcField e).care w e := by
  cases he : e.getLsbD 21 with
  | true =>
    rw [moveSrcField_of_sr he, show MoveSrc.sr.care = 0x00200000 from rfl, ← bit21_eq_iff, he]
    cases hw : w.getLsbD 21 with
    | true => simp [moveSrcField_of_sr hw]
    | false => simp [moveSrcField_of_operand hw, RegImm.asMoveSrc_ne_sr]
  | false =>
    rw [moveSrcField_of_operand he, RegImm.care_asMoveSrc, sameOn_or, ← bit21_eq_iff, ← regImmField_eq_iff, he]
    cases hw : w.getLsbD 21 with
    | true => simp [moveSrcField_of_sr hw, (RegImm.asMoveSrc_ne_sr _).symm]
    | false => simp [moveSrcField_of_operand hw, RegImm.asMoveSrc_injective.eq_iff]

theorem moveDstField_of_sr {w : Word} (h : w.getLsbD 20 = true) : moveDstField w = .sr := if_pos h

theorem moveDstField_of_reg {w : Word} (h : w.getLsbD 20 = false) : moveDstField w = .reg (rdField w) := by
  rw [moveDstField, h, if_neg Bool.false_ne_true]

/-- R86: MOVE's destination is bit 20 and, where that is 0, the register in bits 25..23. -/
theorem moveDstField_eq_iff (w e : Word) : moveDstField w = moveDstField e ↔ SameOn (moveDstField e).care w e := by
  cases he : e.getLsbD 20 with
  | true =>
    rw [moveDstField_of_sr he, show MoveDst.sr.care = 0x00100000 from rfl, ← bit20_eq_iff, he]
    cases hw : w.getLsbD 20 with
    | true => simp [moveDstField_of_sr hw]
    | false => simp [moveDstField_of_reg hw]
  | false =>
    rw [moveDstField_of_reg he, show (MoveDst.reg (rdField e)).care = 0x00100000 ||| 0x03800000 from rfl, sameOn_or,
      ← bit20_eq_iff, ← rdField_eq_iff, he]
    cases hw : w.getLsbD 20 with
    | true => simp [moveDstField_of_sr hw]
    | false => simp [moveDstField_of_reg hw]

/-! ## What a word that decodes says of its fields -/

/-- R95, R96: a conditional format answers an instruction exactly when its condition code is mapped. -/
theorem withCond_eq_ok_iff {m : Config.CodeMaps} {w : Word} {k : Cond → Instr} {i : Instr} :
    withCond m w k = .ok i ↔ ∃ t, m.condOf (condField w) = some t ∧ k t = i := by
  unfold withCond
  split
  next t ht => simp [ht]
  next hnone => simp [hnone]

theorem opcodeOfInstr_retKind (w : Word) (t : Cond) : opcodeOfInstr (retKind w t) = .ret := by
  unfold retKind
  split
  · split <;> rfl
  · rfl

/-- The arguments of a mnemonic make an instruction of that mnemonic. -/
theorem opcodeOfInstr_of_decodeArgs {m : Config.CodeMaps} {w : Word} {op : Opcode} {i : Instr}
    (h : decodeArgs m w op = .ok i) : opcodeOfInstr i = op := by
  cases op with
  | jp | call | jr | halt =>
    obtain ⟨t, -, rfl⟩ := withCond_eq_ok_iff.mp h
    rfl
  | ret =>
    obtain ⟨t, -, rfl⟩ := withCond_eq_ok_iff.mp h
    exact opcodeOfInstr_retKind w t
  | _ =>
    cases h
    rfl

/-- R81: a word decodes to an instruction exactly when its class is the mnemonic's code and its arguments are the instruction's. -/
theorem decode_eq_ok_iff (w : Word) (i : Instr) :
    decode w = .ok i ↔ opField w = opcodeCode (opcodeOfInstr i) ∧ decodeArgs defaultMaps w (opcodeOfInstr i) = .ok i := by
  rw [eq_comm (a := opField w), ← opcodeOf_eq_some_iff]
  simp only [decode, decodeWith, show defaultMaps.opcodeOf = opcodeOf from rfl]
  constructor
  · intro h
    split at h
    next op hop =>
      obtain rfl := opcodeOfInstr_of_decodeArgs h
      exact ⟨hop, h⟩
    next => cases h
  · rintro ⟨hop, hargs⟩
    simp only [hop, hargs]

/-! ## Each format as a mask (R86 to R94) -/

theorem aluFormat_iff (w e : Word) :
    (opField w = opField e ∧ rs1Field w = rs1Field e ∧ regImmField w = regImmField e ∧ rdField w = rdField e) ↔
      SameOn (0xFBF00000 ||| (regImmField e).care) w e := by
  rw [show (0xFBF00000 : Word) = 0xF8000000 ||| 0x03800000 ||| 0x00700000 by decide, sameOn_or, sameOn_or, sameOn_or,
    ← opField_eq_iff, ← rdField_eq_iff, ← rs1Field_eq_iff, ← regImmField_eq_iff]
  tauto

theorem cmpFormat_iff (w e : Word) :
    (opField w = opField e ∧ rs1Field w = rs1Field e ∧ regImmField w = regImmField e) ↔
      SameOn (0xF8700000 ||| (regImmField e).care) w e := by
  rw [show (0xF8700000 : Word) = 0xF8000000 ||| 0x00700000 by decide, sameOn_or, sameOn_or, ← opField_eq_iff,
    ← rs1Field_eq_iff, ← regImmField_eq_iff, and_assoc]

theorem moveFormat_iff (w e : Word) :
    (opField w = opField e ∧ moveSrcField w = moveSrcField e ∧ moveDstField w = moveDstField e) ↔
      SameOn (0xF8000000 ||| (moveSrcField e).care ||| (moveDstField e).care) w e := by
  rw [sameOn_or, sameOn_or, ← opField_eq_iff, ← moveSrcField_eq_iff, ← moveDstField_eq_iff, and_assoc]

theorem stackFormat_iff (w e : Word) : (opField w = opField e ∧ rdField w = rdField e) ↔ SameOn 0xFB800000 w e := by
  rw [show (0xFB800000 : Word) = 0xF8000000 ||| 0x03800000 by decide, sameOn_or, ← opField_eq_iff, ← rdField_eq_iff]

theorem memFormat_iff (w e : Word) :
    (opField w = opField e ∧ addrField w = addrField e ∧ rdField w = rdField e) ↔
      SameOn (0xF8000000 ||| (addrField e).care) w e := by
  rw [sameOn_or, ← opField_eq_iff, memFields_eq_iff]

theorem haltFormat_iff (w e : Word) : (opField w = opField e ∧ condField w = condField e) ↔ SameOn 0xFBC00000 w e := by
  rw [show (0xFBC00000 : Word) = 0xF8000000 ||| 0x03C00000 by decide, sameOn_or, ← opField_eq_iff, ← condField_eq_iff]

theorem jumpFormat_iff (w e : Word) :
    (opField w = opField e ∧ condField w = condField e ∧ regImmField w = regImmField e) ↔
      SameOn (0xFBC00000 ||| (regImmField e).care) w e := by
  rw [sameOn_or, ← haltFormat_iff, ← regImmField_eq_iff, and_assoc]

theorem jrFormat_iff (w e : Word) :
    (opField w = opField e ∧ condField w = condField e ∧ immField w = immField e) ↔ SameOn 0xFBCFFFFF w e := by
  rw [show (0xFBCFFFFF : Word) = 0xFBC00000 ||| 0x000FFFFF by decide, sameOn_or, ← haltFormat_iff, ← immField_eq_iff,
    and_assoc]

theorem retFormat_iff (w e : Word) :
    (opField w = opField e ∧ condField w = condField e ∧ w.getLsbD 0 = e.getLsbD 0) ↔ SameOn 0xFBC00001 w e := by
  rw [show (0xFBC00001 : Word) = 0xFBC00000 ||| 0x00000001 by decide, sameOn_or, ← haltFormat_iff, ← bit0_eq_iff, and_assoc]

/-- RETI and RETN are told apart by bit 1 (R91). -/
theorem retiFormat_iff (w e : Word) :
    (opField w = opField e ∧ condField w = condField e ∧ w.getLsbD 0 = e.getLsbD 0 ∧ w.getLsbD 1 = e.getLsbD 1) ↔
      SameOn 0xFBC00003 w e := by
  rw [show (0xFBC00003 : Word) = 0xFBC00001 ||| 0x00000002 by decide, sameOn_or, ← retFormat_iff, ← bit1_eq_iff]
  tauto

/-! ## Conditional words -/

/-- A conditional word decodes to the tag of another exactly when the two condition codes are the same. -/
theorem condOf_eq_some_iff_of_some {c d : BitVec 4} {t : Cond} (hd : condOf d = some t) : condOf c = some t ↔ c = d := by
  rw [condOf_eq_some_iff] at hd ⊢
  rw [hd]
  exact eq_comm

/-- Where the tag `t`, under a condition `P` on the other fields, makes the instruction, a word makes it exactly when it has the
tag's code and meets `P`. -/
theorem withCond_eq_ok_iff_of_some {w e : Word} {k : Cond → Instr} {i : Instr} {t : Cond} {P : Prop}
    (he : condOf (condField e) = some t) (hk : ∀ t', k t' = i ↔ t' = t ∧ P) :
    withCond defaultMaps w k = .ok i ↔ condField w = condField e ∧ P := by
  rw [withCond_eq_ok_iff, ← condOf_eq_some_iff_of_some he]
  simp [hk, defaultMaps]

theorem retKind_eq_ret_iff {w : Word} {t' t : Cond} : retKind w t' = .ret t ↔ t' = t ∧ w.getLsbD 0 = false := by
  unfold retKind
  cases w.getLsbD 0 <;> cases w.getLsbD 1 <;> simp

theorem retKind_eq_reti_iff {w : Word} {t' t : Cond} :
    retKind w t' = .reti t ↔ t' = t ∧ w.getLsbD 0 = true ∧ w.getLsbD 1 = false := by
  unfold retKind
  cases w.getLsbD 0 <;> cases w.getLsbD 1 <;> simp

theorem retKind_eq_retn_iff {w : Word} {t' t : Cond} :
    retKind w t' = .retn t ↔ t' = t ∧ w.getLsbD 0 = true ∧ w.getLsbD 1 = true := by
  unfold retKind
  cases w.getLsbD 0 <;> cases w.getLsbD 1 <;> simp

/-- R97: a word decodes as another one does exactly when the two agree on the bits the instruction's format reads. -/
theorem decode_eq_ok_iff_sameOn {e : Word} {i : Instr} (he : decode e = .ok i) (w : Word) :
    decode w = .ok i ↔ SameOn (careMask i) w e := by
  obtain ⟨hop, hargs⟩ := (decode_eq_ok_iff e i).mp he
  rw [decode_eq_ok_iff, ← hop]
  cases i with
  | move src dest =>
    cases hargs
    rw [careMask, ← moveFormat_iff]
    simp only [opcodeOfInstr, decodeArgs, Except.ok.injEq, Instr.move.injEq]
  | or | and | xor | add | adc | sub | sbc | rotl | rotr | shl | shr | ashr =>
    cases hargs
    rw [careMask, ← aluFormat_iff]
    simp [opcodeOfInstr, decodeArgs]
  | cmp src1 src2 =>
    cases hargs
    rw [careMask, ← cmpFormat_iff]
    simp only [opcodeOfInstr, decodeArgs, Except.ok.injEq, Instr.cmp.injEq]
  | pop | push =>
    cases hargs
    rw [careMask, ← stackFormat_iff]
    simp [opcodeOfInstr, decodeArgs]
  | loadb | storeb | loadh | storeh | load | store =>
    cases hargs
    rw [careMask, ← memFormat_iff]
    simp [opcodeOfInstr, decodeArgs]
  | jp | call =>
    obtain ⟨t, ht, hk⟩ := withCond_eq_ok_iff.mp hargs
    cases hk
    rw [careMask, ← jumpFormat_iff, opcodeOfInstr, decodeArgs,
      withCond_eq_ok_iff_of_some (P := regImmField w = regImmField e) ht (fun _ => by simp)]
  | jr cond off =>
    obtain ⟨t, ht, hk⟩ := withCond_eq_ok_iff.mp hargs
    cases hk
    rw [careMask, ← jrFormat_iff, opcodeOfInstr, decodeArgs,
      withCond_eq_ok_iff_of_some (P := immField w = immField e) ht (fun _ => by simp)]
  | ret cond =>
    obtain ⟨t, ht, hk⟩ := withCond_eq_ok_iff.mp hargs
    obtain ⟨rfl, h0⟩ := retKind_eq_ret_iff.mp hk
    rw [careMask, ← retFormat_iff, opcodeOfInstr, decodeArgs, withCond_eq_ok_iff_of_some ht (fun _ => retKind_eq_ret_iff), h0]
  | reti cond =>
    obtain ⟨t, ht, hk⟩ := withCond_eq_ok_iff.mp hargs
    obtain ⟨rfl, h0, h1⟩ := retKind_eq_reti_iff.mp hk
    rw [careMask, ← retiFormat_iff, opcodeOfInstr, decodeArgs,
      withCond_eq_ok_iff_of_some ht (fun _ => retKind_eq_reti_iff), h0, h1]
  | retn cond =>
    obtain ⟨t, ht, hk⟩ := withCond_eq_ok_iff.mp hargs
    obtain ⟨rfl, h0, h1⟩ := retKind_eq_retn_iff.mp hk
    rw [careMask, ← retiFormat_iff, opcodeOfInstr, decodeArgs,
      withCond_eq_ok_iff_of_some ht (fun _ => retKind_eq_retn_iff), h0, h1]
  | halt cond =>
    obtain ⟨t, ht, hk⟩ := withCond_eq_ok_iff.mp hargs
    cases hk
    rw [careMask, ← haltFormat_iff, opcodeOfInstr, decodeArgs,
      withCond_eq_ok_iff_of_some (P := True) ht (fun _ => by simp), and_true]

/-- Settles O3: the encoding decodes to the instruction, so the words that do are those that agree with it on the mask. -/
theorem wordIsInstructionIffItsFieldsAgree : Obligations.WordIsInstructionIffItsFieldsAgree := by
  intro i w hi
  exact decode_eq_ok_iff_sameOn (decodeOfEncodeUnderEveryCodeMap defaultMaps i defaultCodeMapsAreLegal hi) w

end Sys2Proof
end

section
/-! O4, O5 and O6 (R82, R96): what the decoder answers is well-formed; the words it rejects; and sample words. -/

namespace Sys2Proof

/-! ## The operands the decoder reads are well-formed (R82) -/

@[simp] theorem isImm20_immField (w : Word) : isImm20 (immField w) = true := isImm20_sext20 _

@[simp] theorem wf_regImmField (w : Word) : (regImmField w).wf = true := by
  unfold regImmField
  split
  · exact isImm20_immField w
  · rfl

@[simp] theorem wf_moveSrcField (w : Word) : (moveSrcField w).wf = true := by
  unfold moveSrcField
  split
  · rfl
  · split
    · exact isImm20_immField w
    · rfl

@[simp] theorem wf_addrField (w : Word) : (addrField w).wf = true := by
  unfold addrField
  split <;> exact isImm20_immField w

theorem wf_retKind (w : Word) (t : Cond) : (retKind w t).wf = true := by
  unfold retKind
  split
  · split <;> rfl
  · rfl

/-- Each format's arguments make a well-formed instruction, for every value of the code maps. -/
theorem wf_of_decodeArgs {m : Config.CodeMaps} {w : Word} {op : Opcode} {i : Instr} (h : decodeArgs m w op = .ok i) :
    i.wf = true := by
  cases op with
  | jp | call | jr | halt =>
    obtain ⟨t, -, rfl⟩ := withCond_eq_ok_iff.mp h
    simp [Instr.wf]
  | ret =>
    obtain ⟨t, -, rfl⟩ := withCond_eq_ok_iff.mp h
    exact wf_retKind w t
  | _ =>
    cases h
    simp [Instr.wf]

/-- Settles O4: a word that decodes does so by the arguments of its mnemonic, which are well-formed. -/
theorem decodedInstructionIsWellFormed : Obligations.DecodedInstructionIsWellFormed := by
  intro w i h
  exact wf_of_decodeArgs ((decode_eq_ok_iff w i).mp h).2

/-! ## The words that do not decode (R96) -/

/-- The mnemonics whose format has a condition field (R95). -/
def Opcode.conditional : Opcode → Bool
  | .jp | .call | .jr | .ret | .halt => true
  | _ => false

/-- R95, R96: a conditional format fails exactly when its condition code is mapped to no tag. -/
theorem withCond_fails_iff {m : Config.CodeMaps} {w : Word} {k : Cond → Instr} :
    (∃ e, withCond m w k = .error e) ↔ m.condOf (condField w) = none := by
  unfold withCond
  split
  next t ht => simp [ht]
  next hnone => simp [hnone]

/-- R96 (b): the arguments fail exactly for a conditional mnemonic with an unmapped condition code. -/
theorem decodeArgs_fails_iff (m : Config.CodeMaps) (w : Word) (op : Opcode) :
    (∃ e, decodeArgs m w op = .error e) ↔ op.conditional = true ∧ m.condOf (condField w) = none := by
  cases op with
  | jp | call | jr | ret | halt => simpa [Opcode.conditional, decodeArgs] using withCond_fails_iff
  | _ => simp [Opcode.conditional, decodeArgs]

/-- R96: a word fails to decode exactly when its class is unmapped, or its mnemonic is conditional and its condition code is. -/
theorem decode_fails_iff (w : Word) :
    (∃ e, decode w = .error e) ↔ opcodeOf (opField w) = none ∨
      (∃ op, opcodeOf (opField w) = some op ∧ op.conditional = true) ∧ condOf (condField w) = none := by
  simp only [decode, decodeWith, show defaultMaps.opcodeOf = opcodeOf from rfl]
  cases hop : opcodeOf (opField w) with
  | none => simp
  | some op =>
    simp only [decodeArgs_fails_iff, show defaultMaps.condOf = condOf from rfl]
    simp

/-- D1: the classes that select no mnemonic. -/
theorem opcodeOf_eq_none_iff (c : BitVec 5) :
    opcodeOf c = none ↔ c ∈ [0b01110#5, 0b01111#5, 0b11100#5, 0b11101#5, 0b11110#5] := by
  revert c
  decide

/-- D1: the classes of the conditional mnemonics. -/
theorem opcodeOf_conditional_iff (c : BitVec 5) :
    (∃ op, opcodeOf c = some op ∧ op.conditional = true) ↔ c ∈ [0b11000#5, 0b11001#5, 0b11010#5, 0b11011#5, 0b11111#5] := by
  have hany : (∃ op, opcodeOf c = some op ∧ op.conditional = true) ↔ (opcodeOf c).any Opcode.conditional = true := by
    cases opcodeOf c <;> simp
  rw [hany]
  revert c
  decide

/-- D2: the one condition code that selects no tag. -/
theorem condOf_eq_none_iff (c : BitVec 4) : condOf c = none ↔ c = 0b1111#4 := by
  revert c
  decide

/-- Settles O5: the unmapped classes, the conditional classes and the unmapped condition code, read off the default maps. -/
theorem decodeFailsExactlyOnUndefinedCodes : Obligations.DecodeFailsExactlyOnUndefinedCodes := by
  intro w
  rw [decode_fails_iff, opcodeOf_eq_none_iff, opcodeOf_conditional_iff, condOf_eq_none_iff, opField, condField]

/-- Settles O6: each word is decoded field by field. -/
theorem sampleWordsDecodeAsTheSpecSays : Obligations.SampleWordsDecodeAsTheSpecSays := by
  refine ⟨?_, ?_, ?_, ?_, ?_, ?_, ?_, ?_, ?_, ?_, ?_, ?_⟩ <;> decide

end Sys2Proof
end

section
/-! O7 and O8 (R6, R7): the bit codec gives the bits of a value, and its signed reading and its extensions are two's complement. -/

namespace Sys2Proof.Machine.Codec

/-- Settles O7: the length, the bits and the unsigned reading of `intToBinary` are its three laws. -/
theorem intToBinaryGivesTheBitsOfTheValue : Obligations.IntToBinaryGivesTheBitsOfTheValue := by
  intro value width
  refine ⟨length_intToBinary value width, fun i hi => ?_, ?_⟩
  · rw [getElem?_intToBinary value (by omega), show width - 1 - (width - 1 - i) = i by omega]
  · rw [binaryToInt_false, unsignedOf_intToBinary]

/-- R7: the signed reading of the bits of a value is its two's complement reading. -/
theorem binaryToInt_intToBinary_true (value n : Nat) :
    binaryToInt (intToBinary value (n + 1)) true = (BitVec.ofNat (n + 1) value).toInt := by
  have hsplit : value % 2 ^ (n + 1) = value % 2 ^ n + 2 ^ n * (value.testBit n).toNat := by
    rw [Nat.toNat_testBit, Nat.mod_pow_succ]
  have hlow : value % 2 ^ n < 2 ^ n := Nat.mod_lt _ (Nat.two_pow_pos n)
  have hpow : 2 ^ (n + 1) = 2 * 2 ^ n := by rw [Nat.pow_succ, Nat.mul_comm]
  rw [BitVec.toInt_eq_toNat_cond, BitVec.toNat_ofNat, hsplit, hpow, intToBinary, binaryToInt]
  cases value.testBit n with
  | true =>
    have hneg : ¬ 2 * (value % 2 ^ n + 2 ^ n * true.toNat) < 2 * 2 ^ n := by simp
    rw [if_neg hneg, if_pos (Bool.and_self true), length_intToBinary, unsignedOf_intToBinary]
    push_cast [Bool.toNat_true]
    ring
  | false =>
    have hpos : 2 * (value % 2 ^ n + 2 ^ n * false.toNat) < 2 * 2 ^ n := by simpa using hlow
    rw [if_pos hpos, if_neg (by decide), unsignedOf, unsignedOf_intToBinary]
    simp

/-- A bit string is the bits of a value when it has their number and agrees with each. -/
theorem eq_intToBinary {bits : Bits} {value width : Nat} (hlen : bits.length = width)
    (hbits : ∀ k, k < width → bits[k]? = some (value.testBit (width - 1 - k))) : bits = intToBinary value width := by
  apply List.ext_getElem?
  intro k
  by_cases hk : k < width
  · rw [hbits k hk, getElem?_intToBinary value hk]
  · rw [List.getElem?_eq_none (by omega), List.getElem?_eq_none (by rw [length_intToBinary]; omega)]

/-- R7: `extend` puts its padding bit on the left, up to the width. -/
theorem getElem?_extend_intToBinary (value : Nat) {len width k : Nat} (signed : Bool) (hlen : len ≤ width) (hk : k < width) :
    (extend (intToBinary value len) width signed)[k]? =
      some (if width - 1 - k < len then value.testBit (width - 1 - k) else signed && (intToBinary value len).headD false) := by
  rw [extend, length_intToBinary]
  by_cases hpad : k < width - len
  · rw [List.getElem?_append_left (by simpa using hpad), List.getElem?_replicate, if_pos hpad, if_neg (by omega)]
  · rw [List.getElem?_append_right (by simpa using hpad), List.length_replicate, getElem?_intToBinary value (by omega),
      if_pos (by omega), show len - 1 - (k - (width - len)) = width - 1 - k by omega]

@[simp] theorem length_extend_intToBinary (value : Nat) {len width : Nat} (signed : Bool) (hlen : len ≤ width) :
    (extend (intToBinary value len) width signed).length = width := by
  simp [extend, hlen]

theorem headD_intToBinary (value n : Nat) : (intToBinary value (n + 1)).headD false = value.testBit n := rfl

/-- R7: the signed extension of the bits of a value is that of two's complement. -/
theorem extend_intToBinary_true (value : Nat) {n width : Nat} (hlen : n + 1 ≤ width) :
    extend (intToBinary value (n + 1)) width true =
      intToBinary ((BitVec.ofNat (n + 1) value).signExtend width).toNat width := by
  refine eq_intToBinary (length_extend_intToBinary value true hlen) fun k hk => ?_
  rw [getElem?_extend_intToBinary value true hlen hk, BitVec.testBit_toNat, BitVec.getLsbD_signExtend, headD_intToBinary,
    BitVec.msb_eq_getLsbD_last, BitVec.getLsbD_ofNat, BitVec.getLsbD_ofNat]
  by_cases hlow : width - 1 - k < n + 1
  · simp [hlow, show width - 1 - k < width by omega]
  · simp [hlow, show width - 1 - k < width by omega]

/-- R7: the unsigned extension puts zeros. -/
theorem extend_intToBinary_false (value : Nat) {len width : Nat} (hlen : len ≤ width) :
    extend (intToBinary value len) width false = intToBinary ((BitVec.ofNat len value).setWidth width).toNat width := by
  refine eq_intToBinary (length_extend_intToBinary value false hlen) fun k hk => ?_
  rw [getElem?_extend_intToBinary value false hlen hk, BitVec.testBit_toNat, BitVec.getLsbD_setWidth,
    BitVec.getLsbD_ofNat]
  by_cases hlow : width - 1 - k < len
  · simp [hlow, show width - 1 - k < width by omega]
  · simp [hlow]

/-- Settles O8: the two readings and the two extensions of a string of at least one bit. -/
theorem codecReadsAndExtendsTwosComplement : Obligations.CodecReadsAndExtendsTwosComplement := by
  intro value len width hpos hlen
  obtain ⟨n, rfl⟩ : ∃ n, len = n + 1 := ⟨len - 1, by omega⟩
  refine ⟨binaryToInt_intToBinary_true value n, ?_, extend_intToBinary_true value hlen, extend_intToBinary_false value hlen⟩
  rw [binaryToInt_false, unsignedOf_intToBinary, BitVec.toNat_ofNat]

end Sys2Proof.Machine.Codec
end

section
/-! O11 to O15 and O18 to O20 (R121, R125, R150, R151, R156 to R158): the conditions, the adder and the subtractor, and the
instructions that subtract. -/

namespace Sys2Proof.Machine

/-! ## Conditions (40_condition.md) -/

/-- Settles O11: the truth table is over four flags, so each tag's row is checked at its sixteen columns. -/
theorem conditionsFollowTheTruthTable : Obligations.ConditionsFollowTheTruthTable := by
  intro sr t
  simp only [condHolds, getFlag, Flag.bit]
  generalize sr.getLsbD 0 = n
  generalize sr.getLsbD 1 = c
  generalize sr.getLsbD 2 = v
  generalize sr.getLsbD 3 = z
  revert n c v z
  cases t <;> decide

/-! ## The adder and the subtractor -/

/-- R150: C is that the unsigned sum does not fit. -/
theorem addC_c_iff (a b : Word) (cin : Bool) : (addC a b cin).c = true ↔ 2 ^ 32 ≤ a.toNat + b.toNat + cin.toNat := by
  rw [addC_c, BitVec.carry, Nat.mod_eq_of_lt a.isLt, Nat.mod_eq_of_lt b.isLt, decide_eq_true_iff, ge_iff_le]

/-- R150: V is that the signed sum does not fit. -/
theorem addC_v_iff (a b : Word) (cin : Bool) :
    (addC a b cin).v = true ↔
      (a.toInt + b.toInt + (cin.toNat : Int) < -2 ^ 31 ∨ 2 ^ 31 ≤ a.toInt + b.toInt + (cin.toNat : Int)) := by
  have ha := a.isLt
  have hb := b.isLt
  have hc := cin.toNat_le
  rw [addC_v, BitVec.carry, BitVec.carry, BitVec.toInt_eq_toNat_cond, BitVec.toInt_eq_toNat_cond, bne_iff_ne, ne_eq,
    decide_eq_decide]
  omega

/-- Settles O13: the sum wraps, and C and V are its unsigned and signed overflow. -/
theorem adderReportsCarryAndSignedOverflow : Obligations.AdderReportsCarryAndSignedOverflow := by
  intro a b cin
  exact ⟨BitVec.toNat_ofNat .., addC_c_iff a b cin, addC_v_iff a b cin⟩

/-- R151: the adder's carry in a subtraction is that it does not borrow. -/
theorem addC_not_c (a b : Word) (bin : Bool) : (addC a (~~~b) (!bin)).c = !decide (a.toNat < b.toNat + bin.toNat) := by
  have hb := b.isLt
  have hcin : (!bin).toNat = 1 - bin.toNat := by cases bin <;> rfl
  have hbin := bin.toNat_le
  rw [Bool.eq_iff_iff, addC_c_iff, BitVec.toNat_not, hcin, Bool.not_eq_true', decide_eq_false_iff_not]
  omega

/-- R151: C under `borrow` is the borrow. -/
@[simp] theorem subB_borrow_c (a b : Word) (bin : Bool) :
    (subB .borrow a b bin).c = decide (a.toNat < b.toNat + bin.toNat) := by
  rw [subB, addC_not_c, Bool.not_not]

/-- R151: C under `notBorrow` is the complement of the borrow. -/
@[simp] theorem subB_notBorrow_c (a b : Word) (bin : Bool) :
    (subB .notBorrow a b bin).c = !decide (a.toNat < b.toNat + bin.toNat) :=
  addC_not_c a b bin

/-- The complement of a word reads as the negated successor. -/
theorem toInt_not_eq (b : Word) : (~~~b).toInt = -b.toInt - 1 := by
  have hb := b.isLt
  rw [BitVec.toInt_eq_toNat_cond, BitVec.toInt_eq_toNat_cond, BitVec.toNat_not]
  omega

/-- R151: V is that the signed difference does not fit, whatever the convention. -/
theorem subB_v_iff (conv : Config.SubCConvention) (a b : Word) (bin : Bool) :
    (subB conv a b bin).v = true ↔
      (a.toInt - b.toInt - (bin.toNat : Int) < -2 ^ 31 ∨ 2 ^ 31 ≤ a.toInt - b.toInt - (bin.toNat : Int)) := by
  have hv : (subB conv a b bin).v = (addC a (~~~b) (!bin)).v := by cases conv <;> rfl
  have hcin : ((!bin).toNat : Int) = 1 - bin.toNat := by cases bin <;> rfl
  rw [hv, addC_v_iff, toInt_not_eq, hcin]
  constructor <;> intro h <;> omega

/-- Settles O14: the result by the model's law, C by the convention, V by the adder's. -/
theorem subtractorReportsBorrowAndSignedOverflow : Obligations.SubtractorReportsBorrowAndSignedOverflow := by
  intro conv a b bin
  refine ⟨subB_res conv a b bin, ?_, subB_v_iff conv a b bin⟩
  cases conv with
  | borrow => simp
  | notBorrow => simp

/-- R158: the borrow that SBC takes in after SUB is SUB's borrow, whatever the convention. -/
theorem sbcBorrowIn_subB_c (conv : Config.SubCConvention) (a b : Word) :
    sbcBorrowIn conv (subB conv a b false).c = decide (a.toNat < b.toNat) := by
  cases conv with
  | borrow => simp [sbcBorrowIn]
  | notBorrow => simp only [sbcBorrowIn, subB_notBorrow_c, Bool.not_not]; rfl

theorem toNat_append_words (hi lo : Word) : (hi ++ lo : BitVec 64).toNat = hi.toNat * 2 ^ 32 + lo.toNat := by
  rw [BitVec.toNat_append, ← Nat.shiftLeft_add_eq_or_of_lt lo.isLt, Nat.shiftLeft_eq]

/-- Settles O15: the borrow of the low words is taken from the high ones. -/
theorem subThenSbcSubtractsTwoWords : Obligations.SubThenSbcSubtractsTwoWords := by
  intro conv aHi aLo bHi bLo lo hi
  have hlo : lo.res.toNat = (aLo - bLo - 0#32).toNat := congrArg BitVec.toNat (subB_res conv aLo bLo false)
  have hhi : hi.res = aHi - bHi - BitVec.ofNat 32 (decide (aLo.toNat < bLo.toNat)).toNat :=
    (subB_res conv aHi bHi _).trans (by rw [sbcBorrowIn_subB_c])
  have h1 := aHi.isLt
  have h2 := aLo.isLt
  have h3 := bHi.isLt
  have h4 := bLo.isLt
  apply BitVec.eq_of_toNat_eq
  rw [toNat_append_words, BitVec.toNat_sub, toNat_append_words, toNat_append_words, hlo, hhi]
  by_cases hb : aLo.toNat < bLo.toNat
  · simp only [hb, decide_true, Bool.toNat_true, BitVec.toNat_sub, BitVec.toNat_ofNat]
    omega
  · simp only [hb, decide_false, Bool.toNat_false, BitVec.toNat_sub, BitVec.toNat_ofNat]
    omega

/-! ## SUB, SBC and CMP (R156 to R158) -/

/-- A difference is zero, in the spelling of the Z flag, exactly when its operands are equal. -/
theorem sub_eq_zero_iff_eq (a b : Word) : a - b = 0#32 ↔ a = b := sub_eq_zero

theorem subB_false_res (conv : Config.SubCConvention) (a b : Word) : (subB conv a b false).res = a - b :=
  (subB_res conv a b false).trans (BitVec.sub_zero _)

theorem subB_v (conv : Config.SubCConvention) (a b : Word) (bin : Bool) :
    (subB conv a b bin).v =
      decide (a.toInt - b.toInt - (bin.toNat : Int) < -2 ^ 31 ∨ 2 ^ 31 ≤ a.toInt - b.toInt - (bin.toNat : Int)) := by
  rw [Bool.eq_iff_iff, subB_v_iff, decide_eq_true_iff]

/-- What writing the borrowing subtractor's result leaves, once the result is known by another name. -/
theorem State.aluWrite_subB_writes (s : State) (dest : Reg) (a b : Word) (bin : Bool) {res : Word}
    (hres : (subB .borrow a b bin).res = res) :
    let t := s.aluWrite dest (subB .borrow a b bin)
    t.reg dest = res ∧ t.flag .n = res.getLsbD 31 ∧ t.flag .z = decide (res = 0#32) ∧
    t.flag .c = decide (a.toNat < b.toNat + bin.toNat) ∧
    t.flag .v = decide (a.toInt - b.toInt - (bin.toNat : Int) < -2 ^ 31 ∨ 2 ^ 31 ≤ a.toInt - b.toInt - (bin.toNat : Int)) ∧
    t.pc = pcAfter s := by
  have hwrites := s.aluWrite_writes dest (subB .borrow a b bin)
  rwa [hres, subB_borrow_c, subB_v] at hwrites

/-- Settles O18: the difference without a borrow-in, which is zero exactly when the operands are equal. -/
theorem subWritesDifferenceAndFlags : Obligations.SubWritesDifferenceAndFlags := by
  intro s src1 src2 dest
  have hwrites := s.aluWrite_subB_writes dest (s.reg src1) (s.regImm src2) false (subB_false_res _ _ _)
  simp only [sub_eq_zero_iff_eq, Bool.toNat_false, Nat.add_zero, Nat.cast_zero, Int.sub_zero] at hwrites
  exact ⟨_, exec_sub s src1 src2 dest, hwrites⟩

/-- Settles O19: the borrow-in is the C flag of the state before, and counts 1 or 0 in the difference. -/
theorem sbcWritesDifferenceWithBorrowAndFlags : Obligations.SbcWritesDifferenceWithBorrowAndFlags := by
  intro s src1 src2 dest
  have hwrites := s.aluWrite_subB_writes dest (s.reg src1) (s.regImm src2) (s.flag .c) (subB_res _ _ _ _)
  rw [show (s.flag .c).toNat = if s.flag .c then 1 else 0 by cases s.flag .c <;> rfl] at hwrites
  exact ⟨_, exec_sbc s src1 src2 dest, hwrites⟩

/-- The four flags of a result written without a destination are those written with one. -/
theorem State.setAluFlags_advance_flags (s : State) (r : AluResult) :
    let t := (s.setAluFlags r).advance
    t.flag .n = r.res.getLsbD 31 ∧ t.flag .z = decide (r.res = 0#32) ∧ t.flag .c = r.c ∧ t.flag .v = r.v := by
  obtain ⟨-, hn, hz, hc, hv, -⟩ := s.aluWrite_writes .r0 r
  exact ⟨hn, hz, hc, hv⟩

/-- R152: writing N, C, V and Z leaves every other bit of sr. -/
theorem getLsbD_setNCVZ_of_ge (sr : Word) (n c v z : Bool) {k : Nat} (h : 4 ≤ k) :
    (setNCVZ sr n c v z).getLsbD k = sr.getLsbD k := by
  rw [getLsbD_setNCVZ, if_neg (by omega), if_neg (by omega), if_neg (by omega), if_neg (by omega)]

/-- The bits that the flags do not stand at are those from 4 on. -/
theorem four_le_of_not_mem_flagBits {k : Nat} (h : k ∉ [0, 1, 2, 3]) : 4 ≤ k := by
  simp only [List.mem_cons, List.not_mem_nil, or_false, not_or] at h
  omega

/-- CMP leaves SUB's flags (R157). -/
theorem exec_cmp_flags (s : State) (src1 : Reg) (src2 : RegImm) :
    ∃ t, exec (.cmp src1 src2) s = .next t ∧
      (let a := s.reg src1
       let b := s.regImm src2
       t.flag .n = (a - b).getLsbD 31 ∧ t.flag .z = decide (a = b) ∧ t.flag .c = decide (a.toNat < b.toNat) ∧
       t.flag .v = decide (a.toInt - b.toInt < -2 ^ 31 ∨ 2 ^ 31 ≤ a.toInt - b.toInt)) := by
  refine ⟨_, exec_cmp s src1 src2, ?_⟩
  have hflags := s.setAluFlags_advance_flags (subB .borrow (s.reg src1) (s.regImm src2) false)
  simpa only [subB_false_res, sub_eq_zero_iff_eq, subB_borrow_c, subB_v, Bool.toNat_false, Nat.add_zero, Nat.cast_zero,
    Int.sub_zero] using hflags

/-- Settles O20: the flags by `exec_cmp_flags`; every other part of the state is kept by `setAluFlags` and `advance`. -/
theorem cmpSetsFlagsOnly : Obligations.CmpSetsFlagsOnly := by
  intro s src1 src2
  obtain ⟨t, ht, hn, hz, hc, hv⟩ := exec_cmp_flags s src1 src2
  refine ⟨t, ht, hn, hz, hc, hv, ?_⟩
  cases (exec_cmp s src1 src2).symm.trans ht
  exact ⟨rfl, fun _ _ => rfl, fun k hk => getLsbD_setNCVZ_of_ge _ _ _ _ _ (four_le_of_not_mem_flagBits hk), fun _ => rfl,
    ⟨rfl, rfl, rfl, rfl, rfl⟩⟩

/-- R125: after a subtraction N differs from V exactly when the first operand is signed below the second. -/
theorem sub_sign_bne_overflow (a b : Word) :
    ((a - b).getLsbD 31 != decide (a.toInt - b.toInt < -2 ^ 31 ∨ 2 ^ 31 ≤ a.toInt - b.toInt)) = decide (a.toInt < b.toInt) := by
  have ha := a.isLt
  have hb := b.isLt
  have hsign : (a - b).getLsbD 31 = decide (2 ^ 31 ≤ (a - b).toNat) :=
    (BitVec.msb_eq_getLsbD_last _).symm.trans (BitVec.msb_eq_decide _)
  rw [hsign, BitVec.toNat_sub, BitVec.toInt_eq_toNat_cond, BitVec.toInt_eq_toNat_cond, Bool.eq_iff_iff, bne_iff_ne, ne_eq,
    decide_eq_decide, decide_eq_true_iff]
  omega

/-- Settles O12: the unsigned comparisons are read off C and Z, the signed ones off N, V and Z. -/
theorem conditionsAfterCompareAreComparisons : Obligations.ConditionsAfterCompareAreComparisons := by
  intro s src1 src2
  obtain ⟨t, ht, hn, hz, hc, hv⟩ := exec_cmp_flags s src1 src2
  have hless := sub_sign_bne_overflow (s.reg src1) (s.regImm src2)
  rw [← hn, ← hv] at hless
  have hnat : s.reg src1 = s.regImm src2 ↔ (s.reg src1).toNat = (s.regImm src2).toNat := BitVec.toNat_inj.symm
  have hint : s.reg src1 = s.regImm src2 ↔ (s.reg src1).toInt = (s.regImm src2).toInt := BitVec.toInt_inj.symm
  have hsame : (t.flag .n == t.flag .v) = !decide ((s.reg src1).toInt < (s.regImm src2).toInt) := by
    rw [← hless, bne, Bool.not_not]
  refine ⟨t, ht, ?_, ?_, ?_, ?_, ?_, ?_, ?_, ?_, ?_, ?_⟩
  · rw [show condHolds .cSet t.sr = t.flag .c from rfl, hc, decide_eq_true_iff]
  · rw [show condHolds .cClear t.sr = !t.flag .c from rfl, hc, Bool.not_eq_true', decide_eq_false_iff_not, Nat.not_lt]
  · rw [show condHolds .cOrZ t.sr = (t.flag .c || t.flag .z) from rfl, hc, hz, Bool.or_eq_true, decide_eq_true_iff,
      decide_eq_true_iff, hnat]
    omega
  · rw [show condHolds .notCAndNotZ t.sr = (!t.flag .c && !t.flag .z) from rfl, hc, hz, Bool.and_eq_true, Bool.not_eq_true',
      Bool.not_eq_true', decide_eq_false_iff_not, decide_eq_false_iff_not, hnat]
    omega
  · rw [show condHolds .nXorV t.sr = (t.flag .n != t.flag .v) from rfl, hless, decide_eq_true_iff]
  · rw [show condHolds .nXorVOrZ t.sr = ((t.flag .n != t.flag .v) || t.flag .z) from rfl, hless, hz, Bool.or_eq_true,
      decide_eq_true_iff, decide_eq_true_iff, hint]
    omega
  · rw [show condHolds .nEqV t.sr = (t.flag .n == t.flag .v) from rfl, hsame, Bool.not_eq_true', decide_eq_false_iff_not,
      Int.not_lt]
  · rw [show condHolds .nEqVAndNotZ t.sr = ((t.flag .n == t.flag .v) && !t.flag .z) from rfl, hsame, hz, Bool.and_eq_true,
      Bool.not_eq_true', Bool.not_eq_true', decide_eq_false_iff_not, decide_eq_false_iff_not, hint]
    omega
  · rw [show condHolds .zSet t.sr = t.flag .z from rfl, hz, decide_eq_true_iff]
  · rw [show condHolds .zClear t.sr = !t.flag .z from rfl, hz, Bool.not_eq_true', decide_eq_false_iff_not]

end Sys2Proof.Machine
end

section
/-! O22 to O27 (R180 to R186): the shifts and rotates, bit by bit, and the frame of the twelve ALU instructions. At the default
each shift answers the state `aluWrite` gives for its result (the model's laws `exec_shl` to `exec_rotr`). -/

namespace Sys2Proof.Machine

/-! ## Shifts -/

/-- What an instruction leaves that answers a result written by `aluWrite`, its flags read off the destination. -/
theorem exec_aluWrite_writes {i : Instr} {s : State} {dest : Reg} {r : AluResult}
    (hexec : exec i s = .next (s.aluWrite dest r)) :
    ∃ t, exec i s = .next t ∧ t.reg dest = r.res ∧ t.flag .n = r.res.getLsbD 31 ∧ t.flag .z = decide (r.res = 0#32) ∧
      t.flag .c = r.c ∧ t.flag .v = r.v ∧ t.pc = pcAfter s :=
  ⟨_, hexec, s.aluWrite_writes dest r⟩

/-- D6: C is 0 for a count of 0. -/
theorem bne_zero_eq_decide (k : Nat) : (k != 0) = decide (k ≠ 0) := by
  rw [Bool.eq_iff_iff, bne_iff_ne, decide_eq_true_iff]

/-- Settles O22: the bits of a left shift. -/
theorem shlShiftsLeft : Obligations.ShlShiftsLeft := by
  intro s src1 src2 dest
  obtain ⟨t, ht, hreg, hn, hz, hc, hv, hpc⟩ := exec_aluWrite_writes (exec_shl s src1 src2 dest)
  refine ⟨t, ht, fun j hj => ?_, by rw [hn, hreg], by rw [hz, hreg], ?_, hv, hpc⟩
  · rw [hreg, shlC, BitVec.getLsbD_shiftLeft]
    simp only [hj, decide_true, Bool.true_and, ← decide_not, Nat.not_lt]
  · rw [hc, shlC, bne_zero_eq_decide]

/-- Settles O23: a right shift is the quotient. -/
theorem shrShiftsRightWithZeros : Obligations.ShrShiftsRightWithZeros := by
  intro s src1 src2 dest
  obtain ⟨t, ht, hreg, hn, hz, hc, hv, hpc⟩ := exec_aluWrite_writes (exec_shr s src1 src2 dest)
  refine ⟨t, ht, ?_, by rw [hn, hreg], by rw [hz, hreg], ?_, hv, hpc⟩
  · rw [hreg, shrC, BitVec.toNat_ushiftRight, Nat.shiftRight_eq_div_pow]
  · rw [hc, shrC, bne_zero_eq_decide]

/-- Settles O24: an arithmetic right shift is the floor of the signed quotient, and keeps the sign. -/
theorem ashrShiftsRightWithSign : Obligations.AshrShiftsRightWithSign := by
  intro s src1 src2 dest
  obtain ⟨t, ht, hreg, hn, hz, hc, hv, hpc⟩ := exec_aluWrite_writes (exec_ashr s src1 src2 dest)
  refine ⟨t, ht, ?_, ?_, by rw [hz, hreg], ?_, hv, hpc⟩
  · rw [hreg, ashrC, BitVec.toInt_sshiftRight, Int.shiftRight_eq_div_pow]
    norm_cast
  · rw [hn, ashrC, ← BitVec.msb_eq_getLsbD_last, BitVec.msb_sshiftRight, BitVec.msb_eq_getLsbD_last]
  · rw [hc, ashrC, bne_zero_eq_decide]

/-! ## Rotates -/

/-- R185: the bits of a left rotate. -/
theorem getLsbD_rotlC (a : Word) {k j : Nat} (hk : k < 32) (hj : j < 32) :
    (rotlC a k).res.getLsbD j = a.getLsbD ((j + 32 - k) % 32) := by
  rw [rotlC]
  split
  next h0 => rw [h0, show (j + 32 - 0) % 32 = j by omega]
  next h0 =>
    rw [BitVec.getLsbD_or, BitVec.getLsbD_shiftLeft, BitVec.getLsbD_ushiftRight]
    by_cases hjk : j < k
    · simp [hjk, show (j + 32 - k) % 32 = 32 - k + j by omega]
    · simp [hjk, hj, show (j + 32 - k) % 32 = j - k by omega, BitVec.getLsbD_of_ge a (32 - k + j) (by omega)]

/-- R186: the bits of a right rotate. -/
theorem getLsbD_rotrC (a : Word) {k j : Nat} (hk : k < 32) (hj : j < 32) :
    (rotrC a k).res.getLsbD j = a.getLsbD ((j + k) % 32) := by
  rw [rotrC]
  split
  next h0 => rw [h0, show (j + 0) % 32 = j by omega]
  next h0 =>
    rw [BitVec.getLsbD_or, BitVec.getLsbD_shiftLeft, BitVec.getLsbD_ushiftRight]
    by_cases hjk : j < 32 - k
    · simp [hjk, show (j + k) % 32 = k + j by omega]
    · simp [hjk, hj, show (j + k) % 32 = j - (32 - k) by omega, BitVec.getLsbD_of_ge a (k + j) (by omega)]

/-- A word whose bits are those of another at the places `f` runs through is zero exactly when the other is, if `f` reaches every
place. -/
theorem eq_zero_iff_of_permuted_bits {r a : Word} {f g : Nat → Nat} (hbits : ∀ j, j < 32 → r.getLsbD j = a.getLsbD (f j))
    (hreach : ∀ j, j < 32 → g j < 32 ∧ f (g j) = j) : r = 0#32 ↔ a = 0#32 := by
  constructor
  · rintro rfl
    apply BitVec.eq_of_getLsbD_eq
    intro j hj
    obtain ⟨hg, hfg⟩ := hreach j hj
    rw [← hfg, ← hbits _ hg, BitVec.getLsbD_zero, BitVec.getLsbD_zero]
  · rintro rfl
    apply BitVec.eq_of_getLsbD_eq
    intro j hj
    rw [hbits j hj, BitVec.getLsbD_zero, BitVec.getLsbD_zero]

theorem rotlC_eq_zero_iff (a : Word) {k : Nat} (hk : k < 32) : (rotlC a k).res = 0#32 ↔ a = 0#32 :=
  eq_zero_iff_of_permuted_bits (g := fun j => (j + k) % 32) (fun _ => getLsbD_rotlC a hk)
    fun _ _ => ⟨Nat.mod_lt _ (by decide), by omega⟩

theorem rotrC_eq_zero_iff (a : Word) {k : Nat} (hk : k < 32) : (rotrC a k).res = 0#32 ↔ a = 0#32 :=
  eq_zero_iff_of_permuted_bits (g := fun j => (j + 32 - k) % 32) (fun _ => getLsbD_rotrC a hk)
    fun _ _ => ⟨Nat.mod_lt _ (by decide), by omega⟩

/-- D6: C after a left rotate is the new bit 0, unless the count is 0. -/
theorem rotlC_c (a : Word) {k : Nat} (hk : k < 32) : (rotlC a k).c = (decide (k ≠ 0) && (rotlC a k).res.getLsbD 0) := by
  rw [getLsbD_rotlC a hk (by decide), show (rotlC a k).c = (k != 0 && a.getLsbD (32 - k)) from rfl, bne_zero_eq_decide]
  by_cases h0 : k = 0
  · simp [h0]
  · rw [show (0 + 32 - k) % 32 = 32 - k by omega]

/-- D6: C after a right rotate is the new bit 31, unless the count is 0. -/
theorem rotrC_c (a : Word) {k : Nat} (hk : k < 32) : (rotrC a k).c = (decide (k ≠ 0) && (rotrC a k).res.getLsbD 31) := by
  rw [getLsbD_rotrC a hk (by decide), show (rotrC a k).c = (k != 0 && a.getLsbD (k - 1)) from rfl, bne_zero_eq_decide]
  by_cases h0 : k = 0
  · simp [h0]
  · rw [show (31 + k) % 32 = k - 1 by omega]

/-- Settles O25: the bits, the zero test and C of a left rotate, for the count modulo 32. -/
theorem rotlRotatesLeft : Obligations.RotlRotatesLeft := by
  intro s src1 src2 dest
  have hk : (s.regImm src2).toNat % 32 < 32 := Nat.mod_lt _ (by decide)
  obtain ⟨t, ht, hreg, hn, hz, hc, hv, hpc⟩ := exec_aluWrite_writes (exec_rotl s src1 src2 dest)
  refine ⟨t, ht, fun j hj => by rw [hreg, getLsbD_rotlC _ hk hj], by rw [hn, hreg], ?_, by rw [hc, hreg, rotlC_c _ hk], hv, hpc⟩
  rw [hz, decide_eq_decide, rotlC_eq_zero_iff _ hk]

/-- Settles O26: the bits, the zero test and C of a right rotate, for the count modulo 32. -/
theorem rotrRotatesRight : Obligations.RotrRotatesRight := by
  intro s src1 src2 dest
  have hk : (s.regImm src2).toNat % 32 < 32 := Nat.mod_lt _ (by decide)
  obtain ⟨t, ht, hreg, hn, hz, hc, hv, hpc⟩ := exec_aluWrite_writes (exec_rotr s src1 src2 dest)
  refine ⟨t, ht, fun j hj => by rw [hreg, getLsbD_rotrC _ hk hj], by rw [hn, hreg], ?_, by rw [hc, hreg, rotrC_c _ hk], hv, hpc⟩
  rw [hz, decide_eq_decide, rotrC_eq_zero_iff _ hk]

/-! ## The frame of the ALU instructions -/

/-- An ALU result written changes no other register, no bit of sr from 4 on, no byte of memory and no control state. -/
theorem State.aluWrite_frame (s : State) (dest : Reg) (r : AluResult) :
    SameRegsBut [dest] s (s.aluWrite dest r) ∧ SameSrBut [0, 1, 2, 3] s (s.aluWrite dest r) ∧
    SameMem s (s.aluWrite dest r) ∧ SameControl s (s.aluWrite dest r) := by
  refine ⟨fun q hq => ?_, fun k hk => ?_, fun _ => rfl, ⟨rfl, rfl, rfl, rfl, rfl⟩⟩
  · exact s.aluWrite_reg_ne dest q r (List.ne_of_not_mem_cons hq)
  · exact s.aluWrite_sr_ge dest r k (four_le_of_not_mem_flagBits hk)

/-- The twelve ALU instructions with a destination write some result there, whatever the parameters. -/
theorem execWith_of_aluDest (p : Config.Params) {i : Instr} {dest : Reg} (hi : i.aluDest = some dest) (s : State) :
    ∃ r, execWith p i s = .next (s.aluWrite dest r) := by
  cases i with
  | or | and | xor | add | adc | sub | sbc | rotl | rotr | shl | shr | ashr =>
    cases hi
    exact ⟨_, rfl⟩
  | _ => cases hi

/-- Settles O27: each of the twelve ends in `aluWrite`, whose frame this is. -/
theorem aluInstructionsChangeOnlyDestAndFlags : Obligations.AluInstructionsChangeOnlyDestAndFlags := by
  intro i dest s t hi ht
  obtain ⟨r, hr⟩ := execWith_of_aluDest defaultParams hi s
  rw [execWith_default, ht] at hr
  cases hr
  exact s.aluWrite_frame dest r

end Sys2Proof.Machine
end

section
/-! O30 to O37 (R52 to R60, R200 to R209, R302): accesses to memory, loads, stores and the stack. Each shared operation is said
twice: what it answers where its address lies in memory, and the fault it is where it does not. -/

namespace Sys2Proof.Machine

/-! ## Addresses -/

/-- R58, R60: an aligned access lies in memory exactly when its address does. -/
theorem align_inBounds_iff (w : Width) (a : Word) :
    (align w a).toNat + w.bytes ≤ Config.memSize ↔ (align w a).toNat < 262144 := by
  rw [align_toNat, show Config.memSize = 262144 from rfl]
  cases w with
  | byte => rw [Width.bytes_byte]; omega
  | half => rw [Width.bytes_half]; omega
  | word => rw [Width.bytes_word]; omega

/-- R58, R60: and outside memory exactly when its address is at or above MEM_SIZE. -/
theorem align_outOfBounds_iff (w : Width) (a : Word) :
    Config.memSize < (align w a).toNat + w.bytes ↔ 262144 ≤ (align w a).toNat := by
  rw [← Nat.not_le, align_inBounds_iff, Nat.not_lt]

/-- Settles O31: the aligned address is a quotient times the size. -/
theorem alignmentIsForcedDown : Obligations.AlignmentIsForcedDown := by
  intro w a
  refine ⟨?_, align_inBounds_iff w a⟩
  have hsplit := Nat.div_add_mod' a.toNat w.bytes
  rw [align_toNat]
  omega

/-- Settles O30: the two cases of a read, its bytes by the model's law. -/
theorem memReadIsLittleEndianWithinBounds : Obligations.MemReadIsLittleEndianWithinBounds := by
  intro s access a w
  obtain ⟨hin, hread⟩ | ⟨hout, hread⟩ := s.memRead_cases access a w
  · exact ⟨fun _ => ⟨_, hread, fun k hk => Memory.extract_readN _ _ _ k hk⟩, fun hout => absurd hin (Nat.not_le.mpr hout)⟩
  · exact ⟨fun hin => absurd hin (Nat.not_le.mpr hout), fun _ => hread⟩

/-! ## The shared operations, inside and outside memory -/

section
variable {s : State}

theorem State.loadReg_of_lt {w : Width} {addr : Addr} (rd : Reg) (h : (align w (s.ea addr)).toNat < 262144) :
    s.loadReg w addr rd = .ok (s.setReg rd (s.mem.readN (align w (s.ea addr)).toNat w)).advance := by
  obtain ⟨-, hok⟩ | ⟨hout, -⟩ := s.loadReg_cases w addr rd
  · exact hok
  · exact absurd h (Nat.not_lt.mpr ((align_outOfBounds_iff w _).mp hout))

theorem State.loadReg_of_ge {w : Width} {addr : Addr} (rd : Reg) (h : 262144 ≤ (align w (s.ea addr)).toNat) :
    s.loadReg w addr rd = .error (.addressOutOfBounds s.pc (align w (s.ea addr)) .read w) := by
  obtain ⟨hin, -⟩ | ⟨-, herr⟩ := s.loadReg_cases w addr rd
  · exact absurd h (Nat.not_le.mpr ((align_inBounds_iff w _).mp hin))
  · exact herr

theorem State.storeReg_of_lt {w : Width} {addr : Addr} (rd : Reg) (h : (align w (s.ea addr)).toNat < 262144) :
    s.storeReg w addr rd = .ok (s.setMem (s.mem.writeN (align w (s.ea addr)).toNat w (s.reg rd))).advance := by
  obtain ⟨-, hok⟩ | ⟨hout, -⟩ := s.storeReg_cases w addr rd
  · exact hok
  · exact absurd h (Nat.not_lt.mpr ((align_outOfBounds_iff w _).mp hout))

theorem State.storeReg_of_ge {w : Width} {addr : Addr} (rd : Reg) (h : 262144 ≤ (align w (s.ea addr)).toNat) :
    s.storeReg w addr rd = .error (.addressOutOfBounds s.pc (align w (s.ea addr)) .write w) := by
  obtain ⟨hin, -⟩ | ⟨-, herr⟩ := s.storeReg_cases w addr rd
  · exact absurd h (Nat.not_le.mpr ((align_inBounds_iff w _).mp hin))
  · exact herr

theorem State.pushWord_of_lt (v : State → Word) (h : ((s.reg .r7 - 4#32) &&& 0xFFFFFFFC#32).toNat < 262144) :
    s.pushWord v = .ok ((s.setReg .r7 (s.reg .r7 - 4#32)).setMem (s.mem.writeN
      ((s.reg .r7 - 4#32) &&& 0xFFFFFFFC#32).toNat .word (v (s.setReg .r7 (s.reg .r7 - 4#32))))) := by
  obtain ⟨-, hok⟩ | ⟨hout, -⟩ := s.pushWord_cases v
  · exact hok
  · exact absurd h (Nat.not_lt.mpr ((align_outOfBounds_iff .word _).mp hout))

theorem State.pushWord_of_ge (v : State → Word) (h : 262144 ≤ ((s.reg .r7 - 4#32) &&& 0xFFFFFFFC#32).toNat) :
    s.pushWord v = .error (.addressOutOfBounds s.pc ((s.reg .r7 - 4#32) &&& 0xFFFFFFFC#32) .write .word) := by
  obtain ⟨hin, -⟩ | ⟨-, herr⟩ := s.pushWord_cases v
  · exact absurd h (Nat.not_le.mpr ((align_inBounds_iff .word _).mp hin))
  · exact herr

theorem State.stackTop_of_lt (h : (s.reg .r7 &&& 0xFFFFFFFC#32).toNat < 262144) :
    s.stackTop = .ok (s.mem.readN (s.reg .r7 &&& 0xFFFFFFFC#32).toNat .word) := by
  obtain ⟨-, hok⟩ | ⟨hout, -⟩ := s.stackTop_cases
  · exact hok
  · exact absurd h (Nat.not_lt.mpr ((align_outOfBounds_iff .word _).mp hout))

theorem State.stackTop_of_ge (h : 262144 ≤ (s.reg .r7 &&& 0xFFFFFFFC#32).toNat) :
    s.stackTop = .error (.addressOutOfBounds s.pc (s.reg .r7 &&& 0xFFFFFFFC#32) .read .word) := by
  obtain ⟨hin, -⟩ | ⟨-, herr⟩ := s.stackTop_cases
  · exact absurd h (Nat.not_le.mpr ((align_inBounds_iff .word _).mp hin))
  · exact herr

/-- The return, once the word it pops is known. -/
theorem State.returnPop_of_stackTop {ra : Word} (h : s.stackTop = .ok ra) :
    s.returnPop = .ok ((s.setReg .r7 (s.reg .r7 + 4#32)).setPc ((ra &&& 0xFFFFFFFC#32) + 4#32)) := by
  simp only [State.returnPop, h]

theorem State.returnPop_of_fault {f : Fault} (h : s.stackTop = .error f) : s.returnPop = .error f := by
  simp only [State.returnPop, h]

/-- PUSH, once its push is known (R208). -/
theorem exec_push_of_ok {rd : Reg} {t : State} (h : s.pushWord (fun s1 => s1.reg rd) = .ok t) :
    exec (.push rd) s = .next t.advance := by
  simp only [exec, execPush, h, State.settle_ok]

theorem exec_push_of_fault {rd : Reg} {f : Fault} (h : s.pushWord (fun s1 => s1.reg rd) = .error f) :
    exec (.push rd) s = .next (s.raise f) := by
  simp only [exec, execPush, h, State.settle_error]

/-- POP, once the word it loads is known (R209). -/
theorem exec_pop_of_ok {v : Word} (rd : Reg) (h : s.stackTop = .ok v) :
    exec (.pop rd) s = .next ((s.setReg rd v).setReg .r7 ((s.setReg rd v).reg .r7 + 4#32)).advance := by
  simp only [exec, execPop, h, State.settle_ok]

theorem exec_pop_of_fault {f : Fault} (rd : Reg) (h : s.stackTop = .error f) : exec (.pop rd) s = .next (s.raise f) := by
  simp only [exec, execPop, h, State.settle_error]

/-- CALL whose condition holds, once its push is known (R232). -/
theorem exec_call_of_ok {c : Cond} {t : State} (dest : RegImm) (hc : condHolds c s.sr = true)
    (h : s.pushWord (fun s1 => s1.pc) = .ok t) : exec (.call c dest) s = .next (t.setPc (t.regImm dest)) := by
  simp only [exec, execCall, State.whenHolds_taken _ hc, h, State.settle_ok]

theorem exec_call_of_fault {c : Cond} {f : Fault} (dest : RegImm) (hc : condHolds c s.sr = true)
    (h : s.pushWord (fun s1 => s1.pc) = .error f) : exec (.call c dest) s = .next (s.raise f) := by
  simp only [exec, execCall, State.whenHolds_taken _ hc, h, State.settle_error]

/-- RET, RETI and RETN whose condition holds, once their pop is known (R234 to R236). -/
theorem exec_ret_of_ok {c : Cond} {t : State} (hc : condHolds c s.sr = true) (h : s.returnPop = .ok t) :
    exec (.ret c) s = .next t := by
  simp only [exec, execRet, State.whenHolds_taken _ hc, h, State.settle_ok]

theorem exec_reti_of_ok {c : Cond} {t : State} (hc : condHolds c s.sr = true) (h : s.returnPop = .ok t) :
    exec (.reti c) s = .next (t.setFlag .gie true) := by
  simp only [exec, execReti, State.whenHolds_taken _ hc, h, State.settle_ok]

theorem exec_retn_of_ok {c : Cond} {t : State} (hc : condHolds c s.sr = true) (h : s.returnPop = .ok t) :
    exec (.retn c) s = .next (t.setIif true) := by
  simp only [exec, execRetn, State.whenHolds_taken _ hc, h, State.settle_ok]

theorem exec_return_of_fault {c : Cond} {i : Instr} {f : Fault} (hi : i = .ret c ∨ i = .reti c ∨ i = .retn c)
    (hc : condHolds c s.sr = true) (h : s.returnPop = .error f) : exec i s = .next (s.raise f) := by
  obtain rfl | rfl | rfl := hi
  · simp only [exec, execRet, State.whenHolds_taken _ hc, h, State.settle_error]
  · simp only [exec, execReti, State.whenHolds_taken _ hc, h, State.settle_error]
  · simp only [exec, execRetn, State.whenHolds_taken _ hc, h, State.settle_error]

section
variable {addr : Addr} {rd : Reg} {i : Instr} {w : Width}

/-- The three loads are one operation at three widths (R202 to R204). -/
theorem exec_load_form
    (h : i = .load addr rd ∧ w = .word ∨ i = .loadh addr rd ∧ w = .half ∨ i = .loadb addr rd ∧ w = .byte) :
    exec i s = s.settle (s.loadReg w addr rd) := by
  obtain ⟨rfl, rfl⟩ | ⟨rfl, rfl⟩ | ⟨rfl, rfl⟩ := h
  · rfl
  · rfl
  · rfl

/-- The three stores are one operation at three widths (R205 to R207). -/
theorem exec_store_form
    (h : i = .store addr rd ∧ w = .word ∨ i = .storeh addr rd ∧ w = .half ∨ i = .storeb addr rd ∧ w = .byte) :
    exec i s = s.settle (s.storeReg w addr rd) := by
  obtain ⟨rfl, rfl⟩ | ⟨rfl, rfl⟩ | ⟨rfl, rfl⟩ := h
  · rfl
  · rfl
  · rfl

/-- A load inside memory answers its register written. -/
theorem settle_loadReg_of_lt (h : (align w (s.ea addr)).toNat < 262144) : s.settle (s.loadReg w addr rd) =
    .next (s.setReg rd (s.mem.readN (align w (s.ea addr)).toNat w)).advance := by
  rw [State.loadReg_of_lt rd h, State.settle_ok]

/-- A store inside memory answers its bytes written. -/
theorem settle_storeReg_of_lt (h : (align w (s.ea addr)).toNat < 262144) : s.settle (s.storeReg w addr rd) =
    .next (s.setMem (s.mem.writeN (align w (s.ea addr)).toNat w (s.reg rd))).advance := by
  rw [State.storeReg_of_lt rd h, State.settle_ok]

/-- A load outside memory takes the fault. -/
theorem settle_loadReg_of_ge (h : 262144 ≤ (align w (s.ea addr)).toNat) : s.settle (s.loadReg w addr rd) =
    .next (s.raise (.addressOutOfBounds s.pc (align w (s.ea addr)) .read w)) := by
  rw [State.loadReg_of_ge rd h, State.settle_error]

/-- A store outside memory takes the fault. -/
theorem settle_storeReg_of_ge (h : 262144 ≤ (align w (s.ea addr)).toNat) : s.settle (s.storeReg w addr rd) =
    .next (s.raise (.addressOutOfBounds s.pc (align w (s.ea addr)) .write w)) := by
  rw [State.storeReg_of_ge rd h, State.settle_error]

end

end

/-! ## Loads and stores (44_load_store.md sections 2 and 3) -/

/-- Settles O32: inside memory a load answers its register written and the pc advanced. -/
theorem loadsReadZeroExtended : Obligations.LoadsReadZeroExtended := by
  intro s addr rd i w hi hin
  refine ⟨_, (exec_load_form hi).trans (settle_loadReg_of_lt hin), fun k hk => ?_, rfl, fun q hq => ?_,
    fun _ _ => rfl, fun _ => rfl, ⟨rfl, rfl, rfl, rfl, rfl⟩⟩
  · rw [State.advance_reg, State.setReg_reg_self]
    exact Memory.extract_readN _ _ _ k hk
  · exact s.setReg_reg_ne rd q _ (List.ne_of_not_mem_cons hq)

/-- Settles O33: inside memory a store answers its bytes written and the pc advanced. -/
theorem storesWriteTruncated : Obligations.StoresWriteTruncated := by
  intro s addr rd i w hi hin
  exact ⟨_, (exec_store_form hi).trans (settle_storeReg_of_lt hin),
    s.setMem_writeN_holdsBytes _ w (s.reg rd), s.setMem_writeN_sameMemBut _ w (s.reg rd), rfl, fun _ _ => rfl, fun _ _ => rfl,
    ⟨rfl, rfl, rfl, rfl, rfl⟩⟩

/-! ## The stack (44_load_store.md section 4) -/

/-- A word read holds the bytes it was read from. -/
theorem State.holdsBytes_readN_word (s : State) (a : Nat) : HoldsBytes s a 4 (s.mem.readN a .word) := by
  intro k hk
  rw [Memory.extract_readN _ _ _ k hk, Width.bytes_word, if_pos hk]
  rfl

/-- The register PUSH stores is read after r7 is decremented (D7). -/
theorem State.pushed_reg (s : State) (rd : Reg) (sp : Word) :
    (s.setReg .r7 sp).reg rd = if rd = .r7 then sp else s.reg rd :=
  s.setReg_reg .r7 rd sp

/-- Settles O34: the push by `pushWord_of_lt`, its bytes by the law of a write. -/
theorem pushDecrementsThenStores : Obligations.PushDecrementsThenStores := by
  intro s rd hin
  refine ⟨_, exec_push_of_ok (s.pushWord_of_lt _ hin), s.setReg_reg_self .r7 _, ?_, ?_, rfl, fun q hq => ?_,
    fun _ _ => rfl, ⟨rfl, rfl, rfl, rfl, rfl⟩⟩
  · rw [← s.pushed_reg rd]
    exact State.setMem_writeN_holdsBytes (s.setReg .r7 (s.reg .r7 - 4#32)) _ .word _
  · exact State.setMem_writeN_sameMemBut (s.setReg .r7 (s.reg .r7 - 4#32)) _ .word _
  · exact s.setReg_reg_ne .r7 q _ (List.ne_of_not_mem_cons hq)

/-- Settles O35: the word by `stackTop_of_lt`, the two registers by the register law. -/
theorem popLoadsThenIncrements : Obligations.PopLoadsThenIncrements := by
  intro s rd hin
  refine ⟨_, _, exec_pop_of_ok rd (s.stackTop_of_lt hin), s.holdsBytes_readN_word _, ?_, rfl, fun q hq => ?_, fun _ _ => rfl,
    fun _ => rfl, ⟨rfl, rfl, rfl, rfl, rfl⟩⟩
  · simp only [State.advance_reg, State.setReg_reg]
    split
    next h => simp [h]
    next h => simp [Ne.symm h]
  · simp only [List.mem_cons, List.not_mem_nil, or_false, not_or] at hq
    rw [State.advance_reg, State.setReg_reg_ne _ _ _ _ hq.2, State.setReg_reg_ne _ _ _ _ hq.1]

/-- Settles O36: POP finds at its slot the word PUSH stored there, and r7 goes back up by the 4 it went down. -/
theorem pushThenPopRestoresRegisters : Obligations.PushThenPopRestoresRegisters := by
  intro s r hin
  have hpush := exec_push_of_ok (s.pushWord_of_lt (fun s1 => s1.reg r) hin)
  generalize ht : (((s.setReg .r7 (s.reg .r7 - 4#32)).setMem _).advance) = t at hpush
  have hreg : ∀ q, t.reg q = if q = .r7 then s.reg .r7 - 4#32 else s.reg q := fun q => by
    rw [← ht]
    exact s.pushed_reg q _
  have hsp : t.reg .r7 = s.reg .r7 - 4#32 := hreg .r7
  have htop : t.stackTop = .ok (if r = .r7 then s.reg .r7 - 4#32 else s.reg r) := by
    rw [t.stackTop_of_lt (by rw [hsp]; exact hin), hsp, ← ht, ← s.pushed_reg r]
    exact congrArg Except.ok (Memory.readN_writeN_word _ _ _)
  refine ⟨t, _, hpush, exec_pop_of_ok r htop, fun q _ => ?_, fun k _ => by rw [← ht]; rfl⟩
  have hback : s.reg .r7 - 4#32 + 4#32 = s.reg .r7 := BitVec.sub_add_cancel _ _
  simp only [State.advance_reg, State.setReg_reg, hreg]
  by_cases hq : q = .r7
  · rw [if_pos hq, hq]
    by_cases hr : r = .r7
    · simp [hr, hback]
    · simp [Ne.symm hr, hback]
  · by_cases hqr : q = r
    · simp [hq, ← hqr]
    · simp [hq, hqr]

/-! ## Outside memory (60_exceptions.md section 1) -/

/-- Settles O37: each access form is the fault of its shared operation, taken by `raise`. -/
theorem accessOutsideMemoryTakesTheFault : Obligations.AccessOutsideMemoryTakesTheFault := by
  rintro s i a access w (⟨addr, rd, hform, rfl⟩ | ⟨hform, rfl, rfl, rfl⟩ | ⟨hform, rfl, rfl, rfl⟩) hout
  · obtain ⟨rfl, rfl, rfl⟩ | ⟨rfl, rfl, rfl⟩ | ⟨rfl, rfl, rfl⟩ | ⟨rfl, rfl, rfl⟩ | ⟨rfl, rfl, rfl⟩ |
      ⟨rfl, rfl, rfl⟩ := hform
    · exact settle_loadReg_of_ge hout
    · exact settle_loadReg_of_ge hout
    · exact settle_loadReg_of_ge hout
    · exact settle_storeReg_of_ge hout
    · exact settle_storeReg_of_ge hout
    · exact settle_storeReg_of_ge hout
  · obtain ⟨rd, rfl⟩ | ⟨c, dest, rfl, hc⟩ := hform
    · exact exec_push_of_fault (s.pushWord_of_ge _ hout)
    · exact exec_call_of_fault dest hc (s.pushWord_of_ge _ hout)
  · obtain ⟨rd, rfl⟩ | ⟨c, hi, hc⟩ := hform
    · exact exec_pop_of_fault rd (s.stackTop_of_ge hout)
    · exact exec_return_of_fault hi hc (State.returnPop_of_fault (s.stackTop_of_ge hout))

end Sys2Proof.Machine
end

section
/-! O38 to O43 (R230 to R237): control transfer and HALT. -/

namespace Sys2Proof.Machine

/-! ## The pc as a word-aligned address (R23) -/

/-- A word-aligned address plus 4 is word-aligned. -/
theorem aligned_add_four (a : Word) : ((a &&& 0xFFFFFFFC#32) + 4#32) &&& 0xFFFFFFFC#32 = (a &&& 0xFFFFFFFC#32) + 4#32 := by
  have ha := a.isLt
  apply BitVec.eq_of_toNat_eq
  change (align .word (align .word a + 4#32)).toNat = (align .word a + 4#32).toNat
  rw [align_toNat, BitVec.toNat_add, align_toNat, Width.bytes_word, BitVec.toNat_ofNat]
  omega

/-- An address whose low two bits are 0 is its own alignment. -/
theorem and_wordMask_of_aligned {a : Word} (h : a &&& 3#32 = 0#32) : a &&& 0xFFFFFFFC#32 = a := by
  have hmod : a.toNat % 4 = 0 := by
    rw [← Nat.and_two_pow_sub_one_eq_mod a.toNat 2]
    exact congrArg BitVec.toNat h
  apply BitVec.eq_of_toNat_eq
  change (align .word a).toNat = a.toNat
  rw [align_toNat, Width.bytes_word]
  omega

/-- The low two bits of an aligned address are 0. -/
theorem and_wordMask_aligned (a : Word) : (a &&& 0xFFFFFFFC#32) &&& 3#32 = 0#32 := by
  rw [BitVec.and_assoc, show 0xFFFFFFFC#32 &&& 3#32 = 0#32 by decide, BitVec.and_zero]

/-! ## Conditional instructions -/

/-- Settles O38: each conditional instruction is a `whenHolds`, which only advances when its condition does not hold. -/
theorem untakenConditionalsOnlyAdvance : Obligations.UntakenConditionalsOnlyAdvance := by
  intro i c s hi hc
  cases i with
  | jp | call | jr | ret | reti | retn | halt =>
    cases hi
    exact State.whenHolds_untaken _ hc
  | _ => cases hi

/-- JP and JR whose condition holds leave the pc at their target, and nothing else changed (R231, R233). -/
theorem exec_jump_taken {s : State} {c : Cond} {dest : RegImm} {off : Word} {i : Instr} {target : Word}
    (hc : condHolds c s.sr = true)
    (hi : i = .jp c dest ∧ target = s.regImm dest ∨ i = .jr c off ∧ target = s.pc + off) :
    exec i s = .next (s.setPc target) := by
  obtain ⟨rfl, rfl⟩ | ⟨rfl, rfl⟩ := hi
  · exact State.whenHolds_taken _ hc
  · exact State.whenHolds_taken _ hc

/-- Settles O39: the pc is the target aligned down, as every aligned address is. -/
theorem takenJumpsLandOnTheirTargets : Obligations.TakenJumpsLandOnTheirTargets := by
  intro s c dest off i target hc hi
  exact ⟨_, exec_jump_taken hc hi, (alignmentIsForcedDown .word target).1, fun _ _ => rfl, fun _ _ => rfl, fun _ => rfl,
    ⟨rfl, rfl, rfl, rfl, rfl⟩⟩

/-- The state after the push of a taken CALL (R232): r7 lower by 4, the address of the CALL at the slot. -/
def State.called (s : State) : State :=
  (s.setReg .r7 (s.reg .r7 - 4#32)).setMem (s.mem.writeN ((s.reg .r7 - 4#32) &&& 0xFFFFFFFC#32).toNat .word s.pc)

theorem State.called_reg (s : State) (q : Reg) : s.called.reg q = if q = .r7 then s.reg .r7 - 4#32 else s.reg q :=
  s.pushed_reg q _

/-- The target of CALL is read after the push (D7). -/
theorem State.called_regImm (s : State) (dest : RegImm) :
    s.called.regImm dest = if dest = .reg .r7 then s.reg .r7 - 4#32 else s.regImm dest := by
  cases dest with
  | imm v => rfl
  | reg q => simp only [State.regImm, State.called_reg, RegImm.reg.injEq]

theorem exec_call_taken {s : State} {c : Cond} (dest : RegImm) (hc : condHolds c s.sr = true)
    (hin : ((s.reg .r7 - 4#32) &&& 0xFFFFFFFC#32).toNat < 262144) :
    exec (.call c dest) s = .next (s.called.setPc (s.called.regImm dest)) :=
  exec_call_of_ok dest hc (s.pushWord_of_lt _ hin)

/-- Settles O40: the push as in PUSH, the target by `called_regImm`. -/
theorem takenCallPushesItsOwnAddress : Obligations.TakenCallPushesItsOwnAddress := by
  intro s c dest hc hin
  refine ⟨_, exec_call_taken dest hc hin, s.called_reg .r7, ?_, ?_, ?_, fun q hq => ?_, fun _ _ => rfl,
    ⟨rfl, rfl, rfl, rfl, rfl⟩⟩
  · exact State.setMem_writeN_holdsBytes (s.setReg .r7 (s.reg .r7 - 4#32)) _ .word s.pc
  · exact State.setMem_writeN_sameMemBut (s.setReg .r7 (s.reg .r7 - 4#32)) _ .word s.pc
  · rw [State.setPc_pc, State.called_regImm]
  · exact (s.called_reg q).trans (if_neg (List.ne_of_not_mem_cons hq))

/-! ## Returns -/

/-- What RET, RETI and RETN leave, once the word they pop is known: the popped pc, and GIE and iif by the kind. -/
theorem exec_return_taken {s : State} {c : Cond} {i : Instr} {ra : Word} (hc : condHolds c s.sr = true)
    (hi : i = .ret c ∨ i = .reti c ∨ i = .retn c) (htop : s.stackTop = .ok ra) :
    ∃ t, exec i s = .next t ∧ t.pc = (ra &&& 0xFFFFFFFC#32) + 4#32 ∧
      (∀ q, t.reg q = if q = .r7 then s.reg .r7 + 4#32 else s.reg q) ∧
      (∀ k, t.sr.getLsbD k = if k = 7 then decide (i = .reti c) || s.sr.getLsbD 7 else s.sr.getLsbD k) ∧
      t.iif = (decide (i = .retn c) || s.iif) ∧ SameMem s t ∧
      t.runState = s.runState ∧ t.fault = s.fault ∧ t.pending = s.pending ∧ t.trace = s.trace := by
  have hpop := State.returnPop_of_stackTop htop
  have hregs := s.setReg_reg .r7 (v := s.reg .r7 + 4#32)
  obtain rfl | rfl | rfl := hi
  · refine ⟨_, exec_ret_of_ok hc hpop, aligned_add_four ra, hregs, fun k => ?_, rfl, fun _ => rfl, rfl, rfl, rfl, rfl⟩
    split
    next h => rw [h]; rfl
    next => rfl
  · refine ⟨_, exec_reti_of_ok hc hpop, aligned_add_four ra, hregs, fun k => ?_, by simp, fun _ => rfl, rfl, rfl, rfl, rfl⟩
    rw [State.setFlag_sr, getLsbD_setFlag, decide_eq_true rfl, Bool.true_or]
    rfl
  · refine ⟨_, exec_retn_of_ok hc hpop, aligned_add_four ra, hregs, fun k => ?_, by simp, fun _ => rfl, rfl, rfl, rfl, rfl⟩
    split
    next h => rw [h]; rfl
    next => rfl

/-- Settles O41: the popped word by `stackTop_of_lt`, what each return leaves by `exec_return_taken`. -/
theorem takenReturnsPopTheirAddress : Obligations.TakenReturnsPopTheirAddress := by
  intro s c i hc hi hin
  obtain ⟨t, ht, hpc, hregs, hsr, hiif, hmem, hcontrol⟩ := exec_return_taken hc hi (s.stackTop_of_lt hin)
  refine ⟨t, _, ht, s.holdsBytes_readN_word _, hpc, hregs .r7, fun q hq => ?_, hsr 7, fun k hk => ?_, hiif, hmem, hcontrol⟩
  · exact (hregs q).trans (if_neg (List.ne_of_not_mem_cons hq))
  · exact (hsr k).trans (if_neg (List.ne_of_not_mem_cons hk))

/-- Settles O42: the word that RET pops is the address the CALL pushed, because the slot and its bytes are as the CALL left them. -/
theorem returnResumesAfterTheCall : Obligations.ReturnResumesAfterTheCall := by
  intro s u c dest hc hpc hin
  refine ⟨_, exec_call_taken dest hc hin, fun hr7 hmem => ?_⟩
  have hsp : u.reg .r7 = s.reg .r7 - 4#32 := hr7.trans (s.called_reg .r7)
  have htop : u.stackTop = .ok s.pc := by
    rw [u.stackTop_of_lt (by rw [hsp]; exact hin), hsp, Memory.readN_congr fun k _ => hmem _]
    exact congrArg Except.ok (Memory.readN_writeN_word _ _ _)
  obtain ⟨v, hv, hvpc, hvregs, -⟩ := exec_return_taken (c := .always) rfl (.inl rfl) htop
  refine ⟨v, hv, by rw [hvpc, and_wordMask_of_aligned hpc], ?_⟩
  rw [hvregs, if_pos rfl, hsp]
  exact BitVec.sub_add_cancel _ _

/-- Settles O43: the condition holds in either case, the unconditional tag's whatever the flags. -/
theorem takenHaltStopsTheCore : Obligations.TakenHaltStopsTheCore := by
  intro s c hc
  have htaken : condHolds c s.sr = true := by
    obtain rfl | h := hc
    · rfl
    · exact h
  exact ⟨s.halt.advance, State.whenHolds_taken _ htaken, rfl, rfl, rfl, fun _ _ => rfl, fun _ _ => rfl, fun _ => rfl, rfl, rfl,
    rfl⟩

end Sys2Proof.Machine
end

section
/-! O44 to O50 and O59: the rules of the whole machine. What an instruction can do to the state is said once (`Effect`), for every
value of the parameters, and so is what a host interaction outside a cycle can do (`HostEffect`); each rule is a case analysis of
the two. -/

namespace Sys2Proof.Machine

/-! ## What an instruction can do -/

/-- The next states of an instruction: the fault of its one access; an ALU result, flags, a MOVE; registers and pc; a store inside
memory with them; and the writes of RETI, RETN and HALT. -/
inductive Effect (i : Instr) (s : State) : State → Prop
  | fault (a : Word) (access : Access) (w : Width) (haccess : access ≠ .fetch) (hout : 262144 ≤ (align w a).toNat) :
      Effect i s (s.raise (.addressOutOfBounds s.pc (align w a) access w))
  | alu (dest : Reg) (r : AluResult) (hi : i.aluDest = some dest) : Effect i s (s.aluWrite dest r)
  | cmp (src1 : Reg) (src2 : RegImm) (r : AluResult) (hi : i = .cmp src1 src2) : Effect i s (s.setAluFlags r).advance
  | move (src : MoveSrc) (dest : MoveDst) (hi : i = .move src dest) : Effect i s (s.moveDst (s.moveSrc src) dest).advance
  | transfer (x : Regs) (pc : Word) : Effect i s ({ s with regs := x }.setPc pc)
  | store (x : Regs) (pc a : Word) (w : Width) (v : Word) (hin : a.toNat + w.bytes ≤ Config.memSize) :
      Effect i s ({ s with regs := x, mem := s.mem.writeN a.toNat w v }.setPc pc)
  | reti (x : Regs) (pc : Word) (c : Cond) (hi : i = .reti c) : Effect i s (({ s with regs := x }.setPc pc).setFlag .gie true)
  | retn (x : Regs) (pc : Word) (c : Cond) (hi : i = .retn c) : Effect i s (({ s with regs := x }.setPc pc).setIif true)
  | halt (c : Cond) (hi : i = .halt c) (hc : condHolds c s.sr = true) : Effect i s s.halt.advance

/-- The effect of an instruction's own end: its next state, or the state of the fault it takes. -/
def EffectOf (i : Instr) (s : State) : Except Fault State → Prop
  | .ok t => Effect i s t
  | .error f => Effect i s (s.raise f)

section
variable {i : Instr} {s t : State}

theorem Effect.of_settle {r : Except Fault State} (hr : EffectOf i s r) (h : s.settle r = .next t) : Effect i s t := by
  obtain rfl | ⟨f, rfl, rfl⟩ := State.settle_cases h
  · exact hr
  · exact hr

/-- R230: a conditional instruction advances, or does what it does when its condition holds. -/
theorem Effect.of_whenHolds {c : Cond} {r : Except Fault State} (hr : condHolds c s.sr = true → EffectOf i s r)
    (h : s.whenHolds c r = .next t) : Effect i s t := by
  obtain ⟨-, rfl⟩ | ⟨hc, rfl | ⟨f, rfl, rfl⟩⟩ := State.whenHolds_cases h
  · exact .transfer s.regs _
  · exact hr hc
  · exact hr hc

theorem effectOf_loadReg (w : Width) (addr : Addr) (rd : Reg) : EffectOf i s (s.loadReg w addr rd) := by
  obtain ⟨-, hok⟩ | ⟨hout, herr⟩ := s.loadReg_cases w addr rd
  · rw [hok]
    exact .transfer _ _
  · rw [herr]
    exact .fault _ .read w (by decide) ((align_outOfBounds_iff w _).mp hout)

theorem effectOf_storeReg (w : Width) (addr : Addr) (rd : Reg) : EffectOf i s (s.storeReg w addr rd) := by
  obtain ⟨hin, hok⟩ | ⟨hout, herr⟩ := s.storeReg_cases w addr rd
  · rw [hok]
    exact .store _ _ _ w _ hin
  · rw [herr]
    exact .fault _ .write w (by decide) ((align_outOfBounds_iff w _).mp hout)

/-- A push, followed by a new pc (PUSH, CALL). -/
theorem effectOf_pushWord (v pc : State → Word) :
    EffectOf i s (match s.pushWord v with | .ok u => .ok (u.setPc (pc u)) | .error f => .error f) := by
  obtain ⟨hin, hok⟩ | ⟨hout, herr⟩ := s.pushWord_cases v
  · rw [hok]
    exact .store _ _ _ .word _ hin
  · rw [herr]
    exact .fault _ .write .word (by decide) ((align_outOfBounds_iff .word _).mp hout)

/-- A read of the stack's top, followed by registers and pc written (POP). -/
theorem effectOf_stackTop (x : Word → Regs) (pc : Word) :
    EffectOf i s (match s.stackTop with | .ok v => .ok ({ s with regs := x v }.setPc pc) | .error f => .error f) := by
  obtain ⟨-, hok⟩ | ⟨hout, herr⟩ := s.stackTop_cases
  · rw [hok]
    exact .transfer _ _
  · rw [herr]
    exact .fault _ .read .word (by decide) ((align_outOfBounds_iff .word _).mp hout)

/-- A return writes r7 and the pc, or is the fault of its pop (RET, RETI, RETN). -/
theorem returnPop_effects (s : State) :
    (∃ x pc, s.returnPop = .ok ({ s with regs := x }.setPc pc)) ∨
    ∃ f, s.returnPop = .error f ∧ ∀ i, Effect i s (s.raise f) := by
  obtain ⟨-, hok⟩ | ⟨hout, herr⟩ := s.returnPop_cases
  · exact .inl ⟨_, _, hok⟩
  · exact .inr ⟨_, herr, fun _ => .fault _ .read .word (by decide) ((align_outOfBounds_iff .word _).mp hout)⟩

theorem effectOf_returnPop : EffectOf i s s.returnPop := by
  obtain ⟨x, pc, hok⟩ | ⟨f, herr, hf⟩ := returnPop_effects s
  · rw [hok]
    exact .transfer x pc
  · rw [herr]
    exact hf i

/-- A return, followed by the flag that RETI or RETN sets. -/
theorem effectOf_returnPop_then {k : State → State} (hk : ∀ x pc, Effect i s (k ({ s with regs := x }.setPc pc))) :
    EffectOf i s (match s.returnPop with | .ok u => .ok (k u) | .error f => .error f) := by
  obtain ⟨x, pc, hok⟩ | ⟨f, herr, hf⟩ := returnPop_effects s
  · rw [hok]
    exact hk x pc
  · rw [herr]
    exact hf i

/-- Every next state of an instruction is one of its effects, for every value of the parameters. -/
theorem execWith_effect {p : Config.Params} (h : execWith p i s = .next t) : Effect i s t := by
  cases i with
  | or | and | xor | add | adc | sub | sbc | rotl | rotr | shl | shr | ashr =>
    cases h
    exact .alu _ _ rfl
  | move src dest =>
    cases h
    exact .move src dest rfl
  | cmp src1 src2 =>
    cases h
    exact .cmp src1 src2 _ rfl
  | pop rd =>
    exact .of_settle (effectOf_stackTop (fun v => (s.regs.set rd v).set .r7 ((s.regs.set rd v).get .r7 + 4#32)) (s.pc + 4#32)) h
  | push => exact .of_settle (effectOf_pushWord _ fun u => u.pc + 4#32) h
  | load | loadh | loadb => exact .of_settle (effectOf_loadReg _ _ _) h
  | store | storeh | storeb => exact .of_settle (effectOf_storeReg _ _ _) h
  | jp c dest => exact .of_whenHolds (r := .ok (s.setPc (s.regImm dest))) (fun _ => Effect.transfer s.regs _) h
  | jr c off => exact .of_whenHolds (r := .ok (s.setPc (s.pc + off))) (fun _ => Effect.transfer s.regs _) h
  | call c dest => exact .of_whenHolds (fun _ => effectOf_pushWord _ fun u => u.regImm dest) h
  | ret c => exact .of_whenHolds (fun _ => effectOf_returnPop) h
  | reti c => exact .of_whenHolds (fun _ => effectOf_returnPop_then fun x pc => .reti x pc c rfl) h
  | retn c => exact .of_whenHolds (fun _ => effectOf_returnPop_then fun x pc => .retn x pc c rfl) h
  | halt c => exact .of_whenHolds (r := .ok s.halt.advance) (fun hc => Effect.halt c rfl hc) h

/-! ## What an effect changes -/

/-- The writers of sr (10_state.md section 3). -/
theorem Effect.sr_changed (h : Effect i s t) (k : Nat) (hk : t.sr.getLsbD k ≠ s.sr.getLsbD k) :
    (k < 4 ∧ (i.aluDest ≠ none ∨ ∃ a b, i = .cmp a b)) ∨ (k < 8 ∧ ∃ src, i = .move src .sr) ∨
      (k = 7 ∧ t.sr.getLsbD 7 = true ∧ ∃ c, i = .reti c) := by
  cases h with
  | alu dest r hi =>
    refine .inl ⟨Nat.lt_of_not_le fun hge => hk (s.aluWrite_sr_ge dest r k hge), .inl ?_⟩
    rw [hi]
    exact Option.some_ne_none dest
  | cmp src1 src2 r hi =>
    exact .inl ⟨Nat.lt_of_not_le fun hge => hk (getLsbD_setNCVZ_of_ge _ _ _ _ _ hge), .inr ⟨src1, src2, hi⟩⟩
  | move src dest hi =>
    cases dest with
    | sr =>
      refine .inr (.inl ⟨Nat.lt_of_not_le fun hge => hk ?_, src, hi⟩)
      rw [State.advance_sr, State.moveDst_sr_getLsbD, if_neg (Nat.not_lt.mpr hge)]
    | reg rd => exact absurd rfl hk
  | reti x pc c hi =>
    have hbit := getLsbD_setFlag s.sr .gie true
    refine .inr (.inr ⟨Decidable.byContradiction fun hne => hk ((hbit k).trans (if_neg hne)), hbit 7, c, hi⟩)
  | fault | transfer | store | retn | halt => exact absurd rfl hk

/-- The writer of iif (10_state.md section 4). -/
theorem Effect.iif_changed (h : Effect i s t) (hne : t.iif ≠ s.iif) : t.iif = true ∧ ∃ c, i = .retn c := by
  cases h with
  | retn x pc c hi => exact ⟨rfl, c, hi⟩
  | move src dest hi => cases dest <;> exact absurd rfl hne
  | fault | alu | cmp | transfer | store | reti | halt => exact absurd rfl hne

/-- An instruction leaves the run state and the fault record, or is a taken HALT, or takes the fault of a data access. -/
theorem Effect.runState_cases (h : Effect i s t) :
    (t.runState = s.runState ∧ t.fault = s.fault) ∨
    (∃ c, i = .halt c ∧ condHolds c s.sr = true ∧ t.runState = .stopped ∧ t.fault = s.fault) ∨
    (∃ a access w, access ≠ .fetch ∧ 262144 ≤ a.toNat ∧ t = s.raise (.addressOutOfBounds s.pc a access w)) := by
  cases h with
  | fault a access w haccess hout => exact .inr (.inr ⟨align w a, access, w, haccess, hout, rfl⟩)
  | halt c hi hc => exact .inr (.inl ⟨c, hi, hc, rfl, rfl⟩)
  | move src dest hi => cases dest <;> exact .inl ⟨rfl, rfl⟩
  | alu | cmp | transfer | store | reti | retn => exact .inl ⟨rfl, rfl⟩

/-- Every pc an instruction writes is word-aligned (R23). -/
theorem Effect.pcAligned (h : Effect i s t) (hs : s.pc &&& 3#32 = 0#32) : t.pc &&& 3#32 = 0#32 := by
  cases h with
  | fault => exact hs
  | alu | cmp | move | transfer | store | reti | retn | halt => exact and_wordMask_aligned _

/-- Every store of an instruction lies inside memory and keeps its canonical form (R50). -/
theorem Effect.memCanonical (h : Effect i s t) (hs : s.mem.wf = true) : t.mem.wf = true := by
  cases h with
  | store x pc a w v hin => exact Memory.wf_writeN s.mem a.toNat w v hs hin
  | move src dest hi => cases dest <;> exact hs
  | fault | alu | cmp | transfer | reti | retn | halt => exact hs

/-- The bits of sr from 8 on are written by no instruction (R27). -/
theorem Effect.srHigh (h : Effect i s t) : t.sr &&& 0xFFFFFF00#32 = s.sr &&& 0xFFFFFF00#32 := by
  refine sameOn_iff_getLsbD.mpr fun k hk => Decidable.byContradiction fun hne => ?_
  have hge : 8 ≤ k := by
    change (fieldMask 8 24).getLsbD k = true at hk
    rw [getLsbD_fieldMask (by decide), decide_eq_true_eq] at hk
    exact hk.1
  obtain ⟨hlt, -⟩ | ⟨hlt, -⟩ | ⟨rfl, -⟩ := h.sr_changed k hne
  · omega
  · omega
  · omega

/-- Every instruction keeps the invariant. -/
theorem Effect.keepsInv (h : Effect i s t) (hs : s.Inv) : t.Inv where
  pcAligned := h.pcAligned hs.pcAligned
  srHigh := h.srHigh.trans hs.srHigh
  iifSet := Decidable.byContradiction fun hne => hne (h.iif_changed fun heq => hne (heq.trans hs.iifSet)).1
  memCanonical := h.memCanonical hs.memCanonical
  faultStops := by
    obtain ⟨hrun, hfault⟩ | ⟨c, -, -, hrun, -⟩ | ⟨a, access, w, -, -, rfl⟩ := h.runState_cases
    · rw [hrun, hfault]
      exact hs.faultStops
    · exact fun _ => hrun
    · exact fun _ => rfl

end

/-- The effect of an instruction at the default parameters. -/
theorem exec_effect {i : Instr} {s t : State} (h : exec i s = .next t) : Effect i s t :=
  execWith_effect (p := defaultParams) ((execWith_default i s).trans h)

/-- Settles O44: the writers of sr and of iif among the effects. -/
theorem onlyTheirWritersChangeSrAndIif : Obligations.OnlyTheirWritersChangeSrAndIif := by
  intro i s t h
  exact ⟨(exec_effect h).sr_changed, (exec_effect h).iif_changed⟩

/-- Settles O45: the one effect that records a fault where none was. -/
theorem instructionFaultsArePrecise : Obligations.InstructionFaultsArePrecise := by
  intro i s t f hs h hf
  obtain ⟨-, hsame⟩ | ⟨c, -, -, -, hsame⟩ | ⟨a, access, w, haccess, hout, rfl⟩ := (exec_effect h).runState_cases
  · rw [hsame, hs] at hf
    cases hf
  · rw [hsame, hs] at hf
    cases hf
  · cases hf
    exact ⟨rfl, a, access, w, rfl, haccess, hout⟩

/-! ## What a step can do -/

section
variable {s : State}

theorem State.onTick_of_not_running (e : Engine) (h : s.runState ≠ .running) : s.onTick e = .next s := by
  unfold State.onTick
  split
  next hr => exact absurd hr h
  next => rfl
  next => rfl

theorem State.onRun_of_no_fault (h : s.fault = none) : s.onRun = (s.emit .beforeRun).setRunState .running := by
  simp only [State.onRun, h]

theorem State.onRun_of_fault (h : s.fault ≠ none) : s.onRun = s := by
  obtain ⟨f, hf⟩ := Option.ne_none_iff_exists'.mp h
  simp only [State.onRun, hf]

theorem State.onPause_of_running (h : s.runState = .running) : s.onPause = s.setRunState .paused := by
  simp only [State.onPause, h]

theorem State.onPause_of_not_running (h : s.runState ≠ .running) : s.onPause = s := by
  unfold State.onPause
  split
  next hr => exact absurd hr h
  next => rfl
  next => rfl

theorem State.onStep_of_refused (e : Engine) (h : s.runState = .running ∨ s.fault ≠ none) : s.onStep e = .next s := by
  unfold State.onStep
  split
  next hf hr => simp [hf, hr] at h
  next hf hr => simp [hf, hr] at h
  next => rfl
  next => rfl

theorem State.onLoad_of_fits {image : List Byte} (hr : s.runState = .stopped) (hfits : image.length ≤ Config.memSize) :
    s.onLoad image = s.setMem (Memory.ofImage image) := by
  simp only [State.onLoad, hr, if_pos hfits]

theorem State.onLoad_of_refused {image : List Byte} (h : s.runState ≠ .stopped ∨ Config.memSize < image.length) :
    s.onLoad image = s := by
  unfold State.onLoad
  split
  next hr => exact if_neg (Nat.not_le.mpr (h.resolve_left (absurd hr)))
  next => rfl
  next => rfl

/-- A tick or a step command that runs no cycle is taken while not running, or is refused (R268, R271). -/
theorem State.not_running_of_tick (hcycle : ¬ s.RunsCycle) (he : s.nextEvent = .tick) : s.runState ≠ .running :=
  fun hr => hcycle (.inl ⟨he, hr⟩)

theorem State.refused_of_step (hcycle : ¬ s.RunsCycle) (he : s.nextEvent = .step) :
    s.runState = .running ∨ s.fault ≠ none := by
  by_contra h
  rw [not_or, not_not] at h
  exact hcycle (.inr ⟨he, h⟩)

/-! The step of each host interaction outside a cycle (R266 to R276). -/

section
variable (e : Engine)

/-- The step takes the next host interaction, which is then no longer pending (R273). -/
theorem State.advanceHost_of_nextEvent {ev : HostEvent} (he : s.nextEvent = ev) : s.advanceHost e = s.dropEvent.take e ev := by
  rw [← he]
  rfl

theorem State.advanceHost_tick (he : s.nextEvent = .tick) (h : s.runState ≠ .running) :
    s.advanceHost e = .next s.dropEvent :=
  (s.advanceHost_of_nextEvent e he).trans (State.onTick_of_not_running (s := s.dropEvent) e h)

theorem State.advanceHost_run (he : s.nextEvent = .run) (h : s.fault = none) :
    s.advanceHost e = .next ((s.dropEvent.emit .beforeRun).setRunState .running) := by
  rw [s.advanceHost_of_nextEvent e he, State.take, State.onRun_of_no_fault (s := s.dropEvent) h]

theorem State.advanceHost_run_refused (he : s.nextEvent = .run) (h : s.fault ≠ none) :
    s.advanceHost e = .next s.dropEvent := by
  rw [s.advanceHost_of_nextEvent e he, State.take, State.onRun_of_fault (s := s.dropEvent) h]

theorem State.advanceHost_pause (he : s.nextEvent = .pause) (h : s.runState = .running) :
    s.advanceHost e = .next (s.dropEvent.setRunState .paused) := by
  rw [s.advanceHost_of_nextEvent e he, State.take, State.onPause_of_running (s := s.dropEvent) h]

theorem State.advanceHost_pause_refused (he : s.nextEvent = .pause) (h : s.runState ≠ .running) :
    s.advanceHost e = .next s.dropEvent := by
  rw [s.advanceHost_of_nextEvent e he, State.take, State.onPause_of_not_running (s := s.dropEvent) h]

theorem State.advanceHost_stop (he : s.nextEvent = .stop) : s.advanceHost e = .next s.dropEvent.halt :=
  s.advanceHost_of_nextEvent e he

theorem State.advanceHost_step_refused (he : s.nextEvent = .step) (h : s.runState = .running ∨ s.fault ≠ none) :
    s.advanceHost e = .next s.dropEvent :=
  (s.advanceHost_of_nextEvent e he).trans (State.onStep_of_refused (s := s.dropEvent) e h)

theorem State.advanceHost_reset (he : s.nextEvent = .reset) : s.advanceHost e = .next s.dropEvent.onReset :=
  s.advanceHost_of_nextEvent e he

theorem State.advanceHost_load {image : List Byte} (he : s.nextEvent = .load image) (hr : s.runState = .stopped)
    (hfits : image.length ≤ Config.memSize) : s.advanceHost e = .next (s.dropEvent.setMem (Memory.ofImage image)) := by
  rw [s.advanceHost_of_nextEvent e he, State.take, State.onLoad_of_fits (s := s.dropEvent) hr hfits]

theorem State.advanceHost_load_refused {image : List Byte} (he : s.nextEvent = .load image)
    (h : s.runState ≠ .stopped ∨ Config.memSize < image.length) : s.advanceHost e = .next s.dropEvent := by
  rw [s.advanceHost_of_nextEvent e he, State.take, State.onLoad_of_refused (s := s.dropEvent) h]

end

end

/-- The next states of a host interaction that runs no cycle: none of it, when it is refused or does nothing, or its row of the
table of R266. -/
inductive HostEffect (s : State) : State → Prop
  | nothing : HostEffect s s.dropEvent
  | run (he : s.nextEvent = .run) (hf : s.fault = none) : HostEffect s ((s.dropEvent.emit .beforeRun).setRunState .running)
  | pause (he : s.nextEvent = .pause) (hr : s.runState = .running) : HostEffect s (s.dropEvent.setRunState .paused)
  | stop (he : s.nextEvent = .stop) : HostEffect s s.dropEvent.halt
  | reset (he : s.nextEvent = .reset) : HostEffect s s.dropEvent.onReset
  | load (image : List Byte) (he : s.nextEvent = .load image) (hr : s.runState = .stopped)
      (hfits : image.length ≤ Config.memSize) : HostEffect s (s.dropEvent.setMem (Memory.ofImage image))

/-- A step of any engine runs a cycle, or does what its host interaction does outside one. -/
theorem State.advanceHost_cases (e : Engine) (s : State) :
    (s.RunsCycle ∧ s.advanceHost e = s.dropEvent.cycle e) ∨ ∃ t, s.advanceHost e = .next t ∧ HostEffect s t := by
  by_cases hcycle : s.RunsCycle
  · exact .inl ⟨hcycle, advanceHost_of_runsCycle e hcycle⟩
  right
  cases he : s.nextEvent with
  | tick => exact ⟨_, s.advanceHost_tick e he (s.not_running_of_tick hcycle he), .nothing⟩
  | run =>
    by_cases hf : s.fault = none
    · exact ⟨_, s.advanceHost_run e he hf, .run he hf⟩
    · exact ⟨_, s.advanceHost_run_refused e he hf, .nothing⟩
  | pause =>
    by_cases hr : s.runState = .running
    · exact ⟨_, s.advanceHost_pause e he hr, .pause he hr⟩
    · exact ⟨_, s.advanceHost_pause_refused e he hr, .nothing⟩
  | stop => exact ⟨_, s.advanceHost_stop e he, .stop he⟩
  | step => exact ⟨_, s.advanceHost_step_refused e he (s.refused_of_step hcycle he), .nothing⟩
  | reset => exact ⟨_, s.advanceHost_reset e he, .reset he⟩
  | load image =>
    by_cases hr : s.runState = .stopped
    · by_cases hfits : image.length ≤ Config.memSize
      · exact ⟨_, s.advanceHost_load e he hr hfits, .load image he hr hfits⟩
      · exact ⟨_, s.advanceHost_load_refused e he (.inr (Nat.not_le.mp hfits)), .nothing⟩
    · exact ⟨_, s.advanceHost_load_refused e he (.inl hr), .nothing⟩

/-- A cycle that answers a next state took a fault of the fetch or the decode, or ran the decoded instruction. -/
theorem State.cycle_next_cases {e : Engine} {s t : State} (h : s.cycle e = .next t) :
    (∃ f, t = (s.emit .beforeCycle).raise f) ∨
    ∃ w i u, s.fetch = .ok w ∧ e.decode w = .ok i ∧ e.exec i ((s.emit .beforeCycle).emit (.beforeExecute i)) = .next u ∧
      t = if u.fault.isNone then u.emit .afterCycle else u := by
  obtain ⟨f, hfault⟩ | ⟨w, i, hfetch, hdecode, hrun⟩ := s.cycle_cases e
  · rw [hfault] at h
    cases h
    exact .inl ⟨f, rfl⟩
  · rw [hrun] at h
    cases hu : e.exec i ((s.emit .beforeCycle).emit (.beforeExecute i)) with
    | next u =>
      rw [hu, afterExecute_next] at h
      cases h
      exact .inr ⟨w, i, u, hfetch, hdecode, hu, rfl⟩
    | fault r => rw [hu] at h; cases h
    | refused r => rw [hu] at h; cases h

/-- The end of a cycle changes the emitted events only. -/
theorem afterCycle_fields (u : State) :
    let t := if u.fault.isNone then u.emit .afterCycle else u
    t.runState = u.runState ∧ t.fault = u.fault := by
  split <;> exact ⟨rfl, rfl⟩

/-! ## Every step answers, and keeps the invariant -/

/-- No step stops, for every value of the parameters. -/
theorem stepWith_answers (p : Config.Params) (s : State) : ∃ t, stepWith p s = .next t := by
  obtain ⟨-, hcycle⟩ | ⟨t, ht, -⟩ := s.advanceHost_cases (engineWith p)
  · obtain ⟨t, ht⟩ := s.dropEvent.cycle_answers (e := engineWith p) (execWith_answers p)
    exact ⟨t, hcycle.trans ht⟩
  · exact ⟨t, ht⟩

theorem stepWith_default (s : State) : stepWith defaultParams s = step s := by
  rw [stepWith, engineWith_default, step]

/-- Settles O46: the answer for every value of the parameters, at the defaults. -/
theorem everyStepAnswersANextState : Obligations.EveryStepAnswersANextState := by
  intro s
  rw [← stepWith_default]
  exact stepWith_answers defaultParams s

/-- Settles O48: every field of the reset state is a constant. -/
theorem resetMeetsTheInvariant : Obligations.ResetMeetsTheInvariant where
  pcAligned := by decide
  srHigh := by decide
  iifSet := rfl
  memCanonical := Memory.wf_reset
  faultStops := fun _ => rfl

section
variable {s t : State}

/-- The invariant reads neither the emitted events nor what the host has still to send. -/
theorem State.Inv.emit (hs : s.Inv) (e : Event) : (s.emit e).Inv :=
  ⟨hs.pcAligned, hs.srHigh, hs.iifSet, hs.memCanonical, hs.faultStops⟩

theorem State.Inv.dropEvent (hs : s.Inv) : s.dropEvent.Inv :=
  ⟨hs.pcAligned, hs.srHigh, hs.iifSet, hs.memCanonical, hs.faultStops⟩

/-- A fault taken leaves the core stopped (R304). -/
theorem State.Inv.raise (hs : s.Inv) (f : Fault) : (s.raise f).Inv :=
  ⟨hs.pcAligned, hs.srHigh, hs.iifSet, hs.memCanonical, fun _ => rfl⟩

/-- Every host interaction outside a cycle keeps the invariant. -/
theorem HostEffect.keepsInv (h : HostEffect s t) (hs : s.Inv) : t.Inv := by
  obtain ⟨hpc, hsr, hiif, hmem, hfault⟩ := hs
  cases h with
  | nothing => exact ⟨hpc, hsr, hiif, hmem, hfault⟩
  | run he hf => exact ⟨hpc, hsr, hiif, hmem, fun hne => absurd hf hne⟩
  | pause he hr =>
    refine ⟨hpc, hsr, hiif, hmem, fun hne => ?_⟩
    cases hr.symm.trans (hfault hne)
  | stop he => exact ⟨hpc, hsr, hiif, hmem, fun _ => rfl⟩
  | reset he =>
    obtain ⟨hpc0, hsr0, hiif0, -, hfault0⟩ := resetMeetsTheInvariant
    exact ⟨hpc0, hsr0, hiif0, hmem, hfault0⟩
  | load image he hr hfits => exact ⟨hpc, hsr, hiif, Memory.wf_ofImage image hfits, hfault⟩

/-- A cycle keeps the invariant, for every value of the parameters. -/
theorem State.cycle_keepsInv {p : Config.Params} (h : s.cycle (engineWith p) = .next t) (hs : s.Inv) : t.Inv := by
  obtain ⟨f, rfl⟩ | ⟨w, i, u, -, -, hu, rfl⟩ := State.cycle_next_cases h
  · exact (hs.emit _).raise f
  · have hinv : u.Inv := (execWith_effect hu).keepsInv ((hs.emit _).emit _)
    split
    · exact hinv.emit _
    · exact hinv

/-- Every step keeps the invariant, for every value of the parameters. -/
theorem stepWith_keepsInv {p : Config.Params} (h : stepWith p s = .next t) (hs : s.Inv) : t.Inv := by
  obtain ⟨-, hcycle⟩ | ⟨u, hu, heffect⟩ := s.advanceHost_cases (engineWith p)
  · exact State.cycle_keepsInv (hcycle.symm.trans h) hs.dropEvent
  · cases hu.symm.trans h
    exact heffect.keepsInv hs

end

/-- Settles O59: every step answers, and what it answers meets the invariant. -/
theorem everyParameterValueKeepsTheInvariant : Obligations.EveryParameterValueKeepsTheInvariant := by
  intro p s hs
  obtain ⟨t, ht⟩ := stepWith_answers p s
  exact ⟨t, ht, stepWith_keepsInv ht hs⟩

/-- Settles O47: the invariant for every value of the parameters, at the defaults. -/
theorem everyStepKeepsTheInvariant : Obligations.EveryStepKeepsTheInvariant := by
  intro s t hs h
  exact stepWith_keepsInv ((stepWith_default s).trans h) hs

/-! ## The run state and the fault record -/

/-- In a state that meets the invariant, a step that runs a cycle begins with no fault recorded. -/
theorem State.RunsCycle.no_fault {s : State} (h : s.RunsCycle) (hs : s.Inv) : s.fault = none := by
  obtain ⟨-, hr⟩ | ⟨-, -, hf⟩ := h
  · by_contra hf
    cases hr.symm.trans (hs.faultStops hf)
  · exact hf

/-- Settles O49: outside a cycle by the table, in a cycle by what its instruction can do to the run state. -/
theorem runStateChangesOnlyAsTheTableSays : Obligations.RunStateChangesOnlyAsTheTableSays := by
  intro s t hs h hne
  obtain ⟨hruns, hcycle⟩ | ⟨u, hu, heffect⟩ := s.advanceHost_cases engine
  · have hnone := hruns.no_fault hs
    obtain ⟨f, rfl⟩ | ⟨w, i, u, hfetch, hdecode, hu, rfl⟩ := State.cycle_next_cases (hcycle.symm.trans h)
    · exact .inr (.inr (.inr (.inr ⟨hruns, ⟨hnone, h, Option.some_ne_none f⟩, rfl⟩)))
    · obtain ⟨hrun, hfault⟩ := afterCycle_fields u
      rw [hrun] at hne
      obtain ⟨hsame, -⟩ | ⟨c, rfl, hc, hstop, hrec⟩ | ⟨a, access, w, -, -, rfl⟩ := (exec_effect hu).runState_cases
      · exact absurd hsame hne
      · exact .inr (.inr (.inr (.inl ⟨⟨hruns, w, c, hfetch, hdecode, hc⟩, h, hrun.trans hstop,
          (hfault.trans hrec).trans hnone⟩)))
      · exact .inr (.inr (.inr (.inr ⟨hruns, ⟨hnone, h, Option.some_ne_none _⟩, rfl⟩)))
  · cases hu.symm.trans h
    cases heffect with
    | nothing => exact absurd rfl hne
    | run he hf => exact .inl ⟨he, hf, rfl⟩
    | pause he hr => exact .inr (.inl ⟨he, hr, rfl⟩)
    | stop he => exact .inr (.inr (.inl ⟨.inl he, rfl⟩))
    | reset he => exact .inr (.inr (.inl ⟨.inr he, rfl⟩))
    | load image he hr hfits => exact absurd rfl hne

/-- Settles O50: with a fault recorded no cycle runs, and outside a cycle only a reset touches the record. -/
theorem faultIsHeldUntilReset : Obligations.FaultIsHeldUntilReset := by
  intro s t f hs hf hreset h
  have hne : s.fault ≠ none := by rw [hf]; exact Option.some_ne_none f
  have hstopped := hs.faultStops hne
  obtain ⟨hruns, -⟩ | ⟨u, hu, heffect⟩ := s.advanceHost_cases engine
  · exact absurd (hruns.no_fault hs) hne
  · cases hu.symm.trans h
    cases heffect with
    | nothing => exact ⟨hf, hstopped, rfl, rfl, rfl, rfl⟩
    | run he hnone => exact absurd hnone hne
    | pause he hr => cases hr.symm.trans hstopped
    | stop he => exact ⟨hf, rfl, rfl, rfl, rfl, rfl⟩
    | reset he => exact absurd he hreset
    | load image he hr hfits => exact ⟨hf, hstopped, rfl, rfl, rfl, rfl⟩

end Sys2Proof.Machine
end

section
/-! O51 to O58 (R64, R260 to R278, R301, R302, R340): the cycle, the host's commands, the load of an image and reset. -/

namespace Sys2Proof.Machine

/-! ## The cycle -/

section
variable {s : State}

/-- A cycle whose word decodes runs the instruction (R260). -/
theorem State.cycle_of_decode {e : Engine} {w : Word} {i : Instr} (hfetch : s.fetch = .ok w) (hdecode : e.decode w = .ok i) :
    s.cycle e = afterExecute (e.exec i ((s.emit .beforeCycle).emit (.beforeExecute i))) := by
  have hfetch' : (s.emit .beforeCycle).fetch = .ok w := hfetch
  simp only [State.cycle, hfetch', State.runWord, hdecode, State.runInstr]

/-- A cycle whose word does not decode takes DecodeFailure (R301). -/
theorem State.cycle_of_undecodable {e : Engine} {w : Word} {d : DecodeFailure} (hfetch : s.fetch = .ok w)
    (hdecode : e.decode w = .error d) : s.cycle e = .next ((s.emit .beforeCycle).raise (.decodeFailure s.pc w)) := by
  have hfetch' : (s.emit .beforeCycle).fetch = .ok w := hfetch
  simp only [State.cycle, hfetch', State.runWord, hdecode, State.emit_pc]

/-- A cycle whose fetch reaches outside memory takes its fault (R302). -/
theorem State.cycle_of_fetch_fault {e : Engine} {f : Fault} (hfetch : s.fetch = .error f) :
    s.cycle e = .next ((s.emit .beforeCycle).raise f) := by
  have hfetch' : (s.emit .beforeCycle).fetch = .error f := hfetch
  simp only [State.cycle, hfetch']

/-- The fetch outside memory is the fault AddressOutOfBounds at the pc. -/
theorem State.fetch_error (h : Config.memSize < s.pc.toNat + 4) :
    s.fetch = .error (.addressOutOfBounds s.pc s.pc .fetch .word) := by
  obtain ⟨hin, -⟩ | ⟨-, herr⟩ := s.memRead_cases .fetch s.pc .word
  · exact absurd h (Nat.not_lt.mpr hin)
  · exact herr

/-- The word that holds the bytes at an address is the word read there. -/
theorem readN_word_of_holdsBytes {a : Nat} {w : Word} (h : HoldsBytes s a 4 w) : s.mem.readN a .word = w :=
  Word.ext_bytes _ _ fun k hk => (s.holdsBytes_readN_word a k hk).symm.trans (h k hk)

/-- Decoding the four bytes at pc is decoding the word at pc (R80). -/
theorem decode_word_of_bytesAtPc {i : Instr} {rest : List Byte} (h : decodeBytes s.bytesAtPc = .ok (i, rest)) :
    decode (s.mem.readN s.pc.toNat .word) = .ok i := by
  have hword : decodeBytes s.bytesAtPc =
      match decode (s.mem.readN s.pc.toNat .word) with | .ok i => .ok (i, []) | .error e => .error e := rfl
  rw [hword] at h
  cases hdecode : decode (s.mem.readN s.pc.toNat .word) with
  | ok j =>
    rw [hdecode] at h
    cases h
    rfl
  | error d =>
    rw [hdecode] at h
    cases h

end

/-- Settles O51: the cycle of the word at pc, which the four bytes decode. -/
theorem stepRunsTheDecodedInstruction : Obligations.StepRunsTheDecodedInstruction := by
  intro s i hruns hin _ hbytes
  rw [step_of_runsCycle hruns]
  exact State.cycle_of_decode (s := s.dropEvent) (State.fetch_ok hin) (decode_word_of_bytesAtPc hbytes)

/-- Settles O52: the cycle of a fetch outside memory. -/
theorem fetchOutsideMemoryTakesTheFault : Obligations.FetchOutsideMemoryTakesTheFault := by
  intro s hruns hout
  rw [step_of_runsCycle hruns]
  exact State.cycle_of_fetch_fault (s := s.dropEvent) (State.fetch_error (s := s.dropEvent) hout)

/-- Settles O53: the cycle of a word that does not decode, fixed by its four bytes. -/
theorem undecodableWordTakesTheFault : Obligations.UndecodableWordTakesTheFault := by
  intro s w d hruns hin hbytes hdecode
  have hfetch : s.dropEvent.fetch = .ok w :=
    (State.fetch_ok (s := s.dropEvent) hin).trans (congrArg _ (readN_word_of_holdsBytes hbytes))
  rw [step_of_runsCycle hruns]
  exact State.cycle_of_undecodable hfetch hdecode

/-- The state of `withFetchWord` for a word's own number. -/
theorem State.withFetchWord_toNat (s : State) (w : Word) : s.withFetchWord 32 w.toNat = s.placeWord w := by
  rw [State.withFetchWord, Nat.mod_eq_of_lt w.isLt, BitVec.ofNat_toNat, BitVec.setWidth_eq]

/-- A word placed inside memory is what the memory there holds. -/
theorem State.placeWord_mem {s : State} (w : Word) (hin : s.pc.toNat + 4 ≤ Config.memSize) :
    (s.placeWord w).mem = s.mem.writeN s.pc.toNat .word w :=
  if_pos ((inBounds_iff s.pc .word).mpr hin)

/-- Settles O54: the cycle of the placed word, with the tick that `placeWord` puts first taken. -/
theorem placedWordIsRunNext : Obligations.PlacedWordIsRunNext := by
  intro s w i hin hdecode
  have hmem := s.placeWord_mem w hin
  have hfetch : (s.placeWord w).dropEvent.fetch = .ok w := by
    rw [State.fetch_ok (s := (s.placeWord w).dropEvent) hin, State.dropEvent_mem, hmem]
    exact congrArg _ (Memory.readN_writeN_word _ _ w)
  refine ⟨((s.placeWord w).dropEvent.emit .beforeCycle).emit (.beforeExecute i), ?_, rfl, rfl, rfl, rfl, rfl, rfl, rfl, ?_, ?_⟩
  · rw [State.withFetchWord_toNat, step_of_runsCycle (s := s.placeWord w) (.inl ⟨rfl, rfl⟩)]
    exact State.cycle_of_decode hfetch hdecode
  · intro k hk
    rw [State.emit_readByte, State.emit_readByte, State.dropEvent_readByte, State.readByte, hmem]
    exact Memory.read_writeN_in _ _ .word w k hk
  · intro x hx
    rw [State.emit_readByte, State.emit_readByte, State.dropEvent_readByte, State.readByte, hmem]
    exact Memory.read_writeN_out _ _ .word w x hx

/-- Settles O55: the store inside memory, and the word it wrote read back. -/
theorem storedWordIsWhatTheNextFetchReads : Obligations.StoredWordIsWhatTheNextFetchReads := by
  intro s addr rd hin
  refine ⟨_, (exec_store_form (.inl ⟨rfl, rfl⟩)).trans (settle_storeReg_of_lt hin), ?_⟩
  rw [State.fetch_ok ((align_inBounds_iff .word _).mpr hin)]
  exact congrArg _ (Memory.readN_writeN_word _ _ _)

/-! ## The host's commands (R266 to R276) -/

/-- Settles O56: each clause is the step of one host interaction outside a cycle. -/
theorem hostCommandsFollowTheTable : Obligations.HostCommandsFollowTheTable := by
  intro s
  exact ⟨s.advanceHost_tick engine, s.advanceHost_run engine, s.advanceHost_run_refused engine, s.advanceHost_pause engine,
    s.advanceHost_pause_refused engine, s.advanceHost_stop engine, s.advanceHost_step_refused engine,
    fun _ => s.advanceHost_load_refused engine⟩

/-- The cells of an image from address `k` on, and 0 below and above it (R64, R65). -/
theorem Memory.read_imageFrom (k : Nat) (bs : List Byte) (x : Nat) :
    Memory.read (Memory.imageFrom k bs) x = if x < k then 0#8 else bs.getD (x - k) 0#8 := by
  induction bs generalizing k with
  | nil => simp [Memory.imageFrom, Memory.read]
  | cons b bs ih =>
    have hhead : Memory.read (Memory.imageFrom k (b :: bs)) x =
        if x = k then b else Memory.read (Memory.imageFrom (k + 1) bs) x := by
      by_cases hb : b = 0#8
      · rw [Memory.imageFrom, if_pos hb, hb]
        split
        next hx => rw [ih, hx, if_pos (Nat.lt_succ_self k)]
        next => rfl
      · rw [Memory.imageFrom, if_neg hb, Memory.read]
        simp only [eq_comm]
    rw [hhead, ih]
    obtain hlt | rfl | hgt := Nat.lt_trichotomy x k
    · rw [if_neg (by omega), if_pos (by omega), if_pos hlt]
    · simp
    · rw [if_neg (by omega), if_neg (by omega), if_neg (by omega), show x - k = x - (k + 1) + 1 by omega, List.getD_cons_succ]

/-- Settles O57: the memory of the image, whose cells `read_imageFrom` gives. -/
theorem imageLoadFillsMemory : Obligations.ImageLoadFillsMemory := by
  intro s image he hr hfits
  refine ⟨_, s.advanceHost_load engine he hr hfits, fun x => ?_, rfl, rfl, rfl, rfl, rfl, rfl, rfl⟩
  rw [State.setMem_readByte, Memory.ofImage, Memory.read_imageFrom, if_neg (Nat.not_lt_zero x), Nat.sub_zero]

/-- Every general register is 0 at reset (R34). -/
theorem Regs.get_zero (r : Reg) : Regs.zero.get r = 0#32 := by cases r <;> rfl

/-- Settles O58: every field of the state after reset is a constant, but memory and the two lists, which are kept. -/
theorem resetGivesTheStartupValues : Obligations.ResetGivesTheStartupValues := by
  refine ⟨fun s he => ⟨_, s.advanceHost_reset engine he, Regs.get_zero, rfl, rfl, rfl, rfl, rfl, fun _ => rfl, rfl⟩,
    Regs.get_zero, rfl, rfl, rfl, rfl, rfl, fun _ => rfl⟩

end Sys2Proof.Machine
end

section
/-! O60 (R4, D4, D5): where the parameters act. Each instruction that reads one is written in the operation that reads it, so that
two values of the parameters are compared there. -/

namespace Sys2Proof.Machine

/-! ## FREQ -/

/-- R346: no instruction reads FREQ. -/
theorem execWith_freq (p : Config.Params) (f : Rat) (i : Instr) (s : State) :
    execWith { p with freq := f } i s = execWith p i s := by
  cases i <;> rfl

/-- R346: neither does the engine. -/
theorem engineWith_freq (p : Config.Params) (f : Rat) : engineWith { p with freq := f } = engineWith p :=
  congrArg (Engine.mk _) (funext fun i => funext fun s => execWith_freq p f i s)

/-! ## SUB_C_CONVENTION -/

/-- D4: under `notBorrow` the subtractor's C is the complement. -/
theorem subB_notBorrow (a b : Word) (bin : Bool) :
    subB .notBorrow a b bin = { subB .borrow a b bin with c := !(subB .borrow a b bin).c } := by
  simp only [subB, Bool.not_not]

/-- Writing C after the four flags is writing it among them. -/
theorem setFlag_c_setNCVZ (sr : Word) (n c c' v z : Bool) : setFlag (setNCVZ sr n c v z) .c c' = setNCVZ sr n c' v z := by
  apply BitVec.eq_of_getLsbD_eq
  intro k _
  simp only [getLsbD_setFlag, getLsbD_setNCVZ, show Flag.c.bit = 1 from rfl]
  by_cases hk : k = 1
  · simp [hk]
  · simp [hk]

/-- The C flag before is overwritten by the four flags. -/
theorem setNCVZ_setFlag_c (sr : Word) (n c c' v z : Bool) : setNCVZ (setFlag sr .c c') n c v z = setNCVZ sr n c v z := by
  apply BitVec.eq_of_getLsbD_eq
  intro k _
  simp only [getLsbD_setFlag, getLsbD_setNCVZ, show Flag.c.bit = 1 from rfl]
  by_cases hk : k = 1
  · simp [hk]
  · simp [hk]

/-- Flags written with C complemented are the flags written, then C complemented. -/
theorem State.setAluFlags_complement_c (s : State) (r : AluResult) :
    s.setAluFlags { r with c := !r.c } = (s.setAluFlags r).setFlag .c (!(s.setAluFlags r).flag .c) := by
  have hc : (s.setAluFlags r).flag .c = r.c := getFlag_setNCVZ_c ..
  rw [hc, State.setFlag, State.setAluFlags_sr, setFlag_c_setNCVZ]
  rfl

theorem State.aluWrite_complement_c (s : State) (d : Reg) (r : AluResult) :
    s.aluWrite d { r with c := !r.c } = (s.aluWrite d r).setFlag .c (!(s.aluWrite d r).flag .c) :=
  congrArg State.advance ((s.setReg d r.res).setAluFlags_complement_c r)

/-- The C flag before an ALU result is written makes no difference after it. -/
theorem State.aluWrite_setFlag_c (s : State) (b : Bool) (d : Reg) (r : AluResult) :
    (s.setFlag .c b).aluWrite d r = s.aluWrite d r := by
  have hsr := setNCVZ_setFlag_c s.sr r.res.msb r.c b r.v (r.res == 0#32)
  exact congrArg (fun sr => ((s.setReg d r.res).setSr sr).advance) hsr

section
variable {p : Config.Params} (hp : p.subC = .notBorrow) (s : State) (a : Reg) (b : RegImm) (d : Reg)
include hp

/-- D4: SUB under `notBorrow` leaves the complement of C. -/
theorem execWith_sub_notBorrow : ∃ t, exec (.sub a b d) s = .next t ∧
    execWith p (.sub a b d) s = .next (t.setFlag .c (!t.flag .c)) := by
  refine ⟨_, exec_sub s a b d, ?_⟩
  rw [execWith, execSubWith, hp, subB_notBorrow, State.aluWrite_complement_c]

/-- D4: and CMP. -/
theorem execWith_cmp_notBorrow : ∃ t, exec (.cmp a b) s = .next t ∧
    execWith p (.cmp a b) s = .next (t.setFlag .c (!t.flag .c)) := by
  refine ⟨_, exec_cmp s a b, ?_⟩
  rw [execWith, execCmpWith, hp, subB_notBorrow, State.setAluFlags_complement_c]
  rfl

/-- D4: and SBC, which reads the complement of C too. -/
theorem execWith_sbc_notBorrow : ∃ t, exec (.sbc a b d) s = .next t ∧
    execWith p (.sbc a b d) (s.setFlag .c (!s.flag .c)) = .next (t.setFlag .c (!t.flag .c)) := by
  have hin : sbcBorrowIn .notBorrow ((s.setFlag .c (!s.flag .c)).flag .c) = s.flag .c := by
    simp [sbcBorrowIn, State.flag]
  have ha : (s.setFlag .c (!s.flag .c)).regImm b = s.regImm b := by cases b <;> rfl
  refine ⟨_, exec_sbc s a b d, ?_⟩
  rw [execWith, execSbcWith, hp, hin, ha, State.setFlag_reg, State.aluWrite_setFlag_c, subB_notBorrow,
    State.aluWrite_complement_c]

end

/-! ## SHIFT_COUNT_BITS -/

/-- A shift or rotate, for every value of the parameters (R182 to R186). -/
theorem execWith_shift_form {i : Instr} {a : Reg} {b : RegImm} {d : Reg}
    (hi : i = .shl a b d ∨ i = .shr a b d ∨ i = .ashr a b d ∨ i = .rotl a b d ∨ i = .rotr a b d) :
    ∃ op, ∀ p s, execWith p i s = .next (s.shiftWrite p.shiftCountBits op a b d) := by
  obtain rfl | rfl | rfl | rfl | rfl := hi
  · exact ⟨.shl, fun _ _ => rfl⟩
  · exact ⟨.shr, fun _ _ => rfl⟩
  · exact ⟨.ashr, fun _ _ => rfl⟩
  · exact ⟨.rotl, fun _ _ => rfl⟩
  · exact ⟨.rotr, fun _ _ => rfl⟩

/-- With five or more count bits, a count below 32 is the count of five bits. -/
theorem shiftCount_eq_of_lt {bits : Nat} {b : Word} (hbits : 5 ≤ bits) (h : b.toNat % 2 ^ bits < 32) :
    shiftCount bits b = shiftCount shiftCountBits b := by
  have hdvd : 2 ^ 5 ∣ 2 ^ bits := Nat.pow_dvd_pow 2 hbits
  rw [shiftCount, shiftCount, shiftCountBits, ← Nat.mod_mod_of_dvd b.toNat hdvd, Nat.mod_eq_of_lt (show _ < 2 ^ 5 from h)]

/-- What a shift or rotate leaves whatever its count: V 0, N and Z from the result, and nothing else changed (R181, R152). -/
theorem State.shiftWrite_writes (s : State) (bits : Nat) (op : Config.ShiftOp) (a : Reg) (b : RegImm) (d : Reg) :
    let t := s.shiftWrite bits op a b d
    t.flag .n = (t.reg d).getLsbD 31 ∧ t.flag .z = decide (t.reg d = 0#32) ∧ t.flag .v = false ∧ t.pc = pcAfter s ∧
    SameRegsBut [d] s t ∧ SameSrBut [0, 1, 2, 3] s t ∧ SameMem s t ∧ SameControl s t := by
  have hframe := s.aluWrite_frame d (shiftBy op (s.reg a) (shiftCount bits (s.regImm b)))
  obtain ⟨hreg, hn, hz, -, hv, hpc⟩ := s.aluWrite_writes d (shiftBy op (s.reg a) (shiftCount bits (s.regImm b)))
  exact ⟨by rw [State.shiftWrite, hn, hreg], by rw [State.shiftWrite, hz, hreg], hv.trans (shiftBy_v ..), hpc, hframe⟩

/-! ## Where an effect differs from the default -/

/-- Under `borrow` SUB, SBC and CMP are those of the default. -/
theorem execWith_of_borrow {p : Config.Params} {i : Instr} {a : Reg} {b : RegImm} {d : Reg} (s : State)
    (hi : i = .sub a b d ∨ i = .sbc a b d ∨ i = .cmp a b) (hp : p.subC = .borrow) : execWith p i s = exec i s := by
  obtain rfl | rfl | rfl := hi
  · rw [exec_sub, execWith, execSubWith, hp]
  · rw [exec_sbc, execWith, execSbcWith, hp, sbcBorrowIn]
  · rw [exec_cmp, execWith, execCmpWith, hp]

/-- With five count bits the shifts and rotates are those of the default. -/
theorem execWith_of_five_count_bits {p : Config.Params} {i : Instr} {a : Reg} {b : RegImm} {d : Reg} (s : State)
    (hi : i = .shl a b d ∨ i = .shr a b d ∨ i = .ashr a b d ∨ i = .rotl a b d ∨ i = .rotr a b d)
    (hp : p.shiftCountBits = 5) : execWith p i s = exec i s := by
  obtain ⟨op, hop⟩ := execWith_shift_form hi
  rw [← execWith_default, hop, hop, hp]
  rfl

/-- An effect that differs from the default is of an instruction that reads a parameter, at another value of it. -/
theorem execWith_ne_exec {p : Config.Params} {i : Instr} {s : State} (h : execWith p i s ≠ exec i s) :
    (p.subC = .notBorrow ∧ ∃ a b d, i = .sub a b d ∨ i = .sbc a b d ∨ i = .cmp a b) ∨
    (p.shiftCountBits ≠ 5 ∧
      ∃ a b d, i = .shl a b d ∨ i = .shr a b d ∨ i = .ashr a b d ∨ i = .rotl a b d ∨ i = .rotr a b d) := by
  have hsub {a b d} (hi : i = .sub a b d ∨ i = .sbc a b d ∨ i = .cmp a b) : p.subC = .notBorrow := by
    cases hp : p.subC with
    | borrow => exact absurd (execWith_of_borrow s hi hp) h
    | notBorrow => rfl
  have hshift {a b d} (hi : i = .shl a b d ∨ i = .shr a b d ∨ i = .ashr a b d ∨ i = .rotl a b d ∨ i = .rotr a b d) :
      p.shiftCountBits ≠ 5 := fun hp => h (execWith_of_five_count_bits s hi hp)
  cases i with
  | sub a b d | sbc a b d => exact .inl ⟨hsub (a := a) (b := b) (d := d) (by simp), a, b, d, by simp⟩
  | cmp a b => exact .inl ⟨hsub (a := a) (b := b) (d := a) (by simp), a, b, a, by simp⟩
  | shl a b d | shr a b d | ashr a b d | rotl a b d | rotr a b d =>
    exact .inr ⟨hshift (a := a) (b := b) (d := d) (by simp), a, b, d, by simp⟩
  | _ => exact absurd rfl h

/-- Settles O60: the five clauses, each by the parameter it speaks of. -/
theorem parametersActOnlyWhereTheyAreRead : Obligations.ParametersActOnlyWhereTheyAreRead := by
  refine ⟨stepWith_default, fun p f s => ?_, fun p i s => execWith_ne_exec, fun p s a b d hp => ?_,
    fun p i s a b d hbits hi => ?_⟩
  · rw [stepWith, engineWith_freq, stepWith]
  · exact ⟨execWith_sub_notBorrow hp s a b d, execWith_cmp_notBorrow hp s a b, execWith_sbc_notBorrow hp s a b d⟩
  · obtain ⟨op, hop⟩ := execWith_shift_form hi
    refine ⟨fun hlt => ?_, _, hop p s, s.shiftWrite_writes _ op a b d⟩
    rw [← execWith_default, hop, hop, State.shiftWrite, shiftCount_eq_of_lt hbits hlt]
    rfl

end Sys2Proof.Machine
end
